-- ==== Sys2Proof/Word.lean ====
section
/-! DEFINITION. The words of the machine (00_scope.md R6, R7): one width, eight bits, for registers, memory bytes, opcodes,
operands and addresses; register indices; the type of the sparse memory. -/

namespace Sys2Proof

/-- XLEN = 8: a register, a memory byte, an opcode, an operand. Addition, subtraction and multiplication of `BitVec 8` are
modulo 256 (10_state.md R22), and every value is unsigned (R7). -/
abbrev Byte := BitVec 8

/-- What holds a memory address or the PC: eight bits (10_state.md R26, 20_memory.md R50). How many of them a configuration
uses is its ADDR_WIDTH and PC_WIDTH; this hardware uses all eight (the spec's decisions D5, D6). -/
abbrev Addr := BitVec 8

/-- A legal register index: NREGS = 8 (10_state.md R21, R23). -/
abbrev RegIndex := Fin 8

/-- The contents of a memory: (address, byte) pairs, addresses rising, no byte equal to what an unlisted address reads as
(the form `Memory.wf` of Machine/Ops.lean). -/
abbrev Memory := List Host.Cell

end Sys2Proof
end

