-- ==== Sys2Proof/Config.lean ====
section
/-! DEFINITION. The parameters of the core (00_scope.md R6), as one structure of plain data. The value this hardware takes
is `Config.hw`, in Decode.lean; a claim may quantify over every configuration instead. Every parameter R6 marks decided is a
field. The four that the source states are no choice of the spec's and are fixed elsewhere: NREGS = 8 (`RegIndex`), XLEN = 8
(`Byte`), CNT_HI:CNT_LO and ALU_BIT (the field positions of Decode.lean); RESET_PC, stated too, is a field all the same.

There is no free value in this model: the spec leaves no result of any instruction undefined. The three OPEN parameters
(GPR_RESET, IR_RESET, MEM_INIT) are fields here, so that a claim about reset holds for all their values. -/

namespace Sys2Proof

/-- The eleven mnemonics of 00_scope.md R1: the handlers a dispatch-table entry can name (40_cycle_and_dispatch.md R117). -/
inductive Mnemonic where
  | nop | hlt | prn | pop | push | inc | dec | ldi | add | mul | and
deriving DecidableEq, Repr

/-- The parameter OPC (30_encoding.md R87): the opcode byte of each mnemonic. -/
structure Opc where
  nop : Byte
  hlt : Byte
  prn : Byte
  pop : Byte
  push : Byte
  inc : Byte
  dec : Byte
  ldi : Byte
  add : Byte
  mul : Byte
  and : Byte
deriving DecidableEq, Repr

/-- The parameters of 00_scope.md R6. -/
structure Config where
  /-- ADDR_WIDTH, decision D5: the width of a memory address in bits. The operand fetches wrap at 2^ADDR_WIDTH (20_memory.md
  R69), and MEM_SIZE is at most that (`Config.legal`). The storage holds 8 bits, so at most 8 (log entry 8). -/
  addrWidth : Nat
  /-- PC_WIDTH, decision D6: the width of the PC in bits. PC arithmetic is modulo 2^PC_WIDTH (10_state.md R27). The register
  holds 8 bits (R26), so at most 8 (log entry 8). -/
  pcWidth : Nat
  /-- MEM_SIZE: memory capacity in bytes. An access at or above it is a MemRangeFault (20_memory.md R52). -/
  memSize : Nat
  /-- SP_REG: the general-purpose register that is the stack pointer (10_state.md R25). -/
  spReg : RegIndex
  /-- SP_INIT: the stack pointer after reset. -/
  spInit : Byte
  /-- RESET_PC: the program counter after reset. -/
  resetPc : Addr
  /-- INCDEC_DISPATCHED: whether INC and DEC have dispatch-table entries. -/
  incDecDispatched : Bool
  /-- OPC: the opcode assignment. -/
  opc : Opc
  /-- GPR_RESET, OPEN: the general-purpose registers after reset. The entry at `spReg` is not used: SP_INIT stands there. -/
  gprReset : Vector Byte 8
  /-- IR_RESET, OPEN: the instruction register after reset. -/
  irReset : Byte
  /-- MEM_INIT, OPEN: the memory before the loader writes it. -/
  memInit : Memory
deriving DecidableEq, Repr

end Sys2Proof
end

