-- ==== Sys2Proof/Syntax.lean ====
section
/-! DEFINITION. The instructions, one constructor for each row of spec/opcode_table.json. A register operand is the whole
operand BYTE (30_encoding.md R84): a byte above 7 is part of the syntax, because a program can hold it, and running it takes
the RegIndexFault of 60_exceptions.md R212. -/

namespace Sys2Proof

/-- The instructions (30_encoding.md R83, R89). `a` is operand A, `b` the register operand B, `v` the immediate operand B. -/
inductive Instr where
  | nop
  | hlt
  | prn (a : Byte)
  | pop (a : Byte)
  | push (a : Byte)
  | inc (a : Byte)
  | dec (a : Byte)
  | ldi (a v : Byte)
  | add (a b : Byte)
  | mul (a b : Byte)
  | and (a b : Byte)
deriving DecidableEq, Repr

end Sys2Proof
end

