-- ==== Sys2Proof/Decode.lean ====
section
/-! DEFINITION. Decoding and encoding (30_encoding.md, 40_cycle_and_dispatch.md section 2): the fields of the opcode byte,
the dispatch-table lookup, the decoder on any bytes, the encoder, and this hardware's opcode assignment and parameters. -/

namespace Sys2Proof

/-! ## The fields of the opcode byte (R81, R82) -/

/-- The operand count `n` of R82: `(ir >> 6) & 0b11`, from the byte alone, the same way for every byte. -/
def operandCount (op : Byte) : Byte := (op >>> 6) &&& 0b11

/-- The `alu` field of R81, bit 5. It steers nothing (R95). -/
def aluFlag (op : Byte) : Bool := op.getLsbD 5

/-- The `op` field of R81, bits 4:0. -/
def opField (op : Byte) : BitVec 5 := op.extractLsb' 0 5

/-! ## What the mnemonics are (R87, R89) -/

/-- Every mnemonic, in the order of the opcode table. -/
def Mnemonic.all : List Mnemonic :=
  [.nop, .hlt, .prn, .pop, .push, .inc, .dec, .ldi, .add, .mul, .and]

/-- The number of operand bytes of a mnemonic: the table of R89. -/
def Mnemonic.arity : Mnemonic → Nat
  | .nop | .hlt => 0
  | .prn | .pop | .push | .inc | .dec => 1
  | .ldi | .add | .mul | .and => 2

/-- Whether a mnemonic is an ALU operation: constraint 3 of R87. -/
def Mnemonic.isAlu : Mnemonic → Bool
  | .inc | .dec | .add | .mul | .and => true
  | .nop | .hlt | .prn | .pop | .push | .ldi => false

/-- The opcode byte an assignment gives a mnemonic. -/
def Opc.byte (o : Opc) : Mnemonic → Byte
  | .nop => o.nop
  | .hlt => o.hlt
  | .prn => o.prn
  | .pop => o.pop
  | .push => o.push
  | .inc => o.inc
  | .dec => o.dec
  | .ldi => o.ldi
  | .add => o.add
  | .mul => o.mul
  | .and => o.and

/-- Whether the dispatch table has an entry for the mnemonic: R117 with the switch INCDEC_DISPATCHED. -/
def Config.dispatches (cfg : Config) : Mnemonic → Bool
  | .inc | .dec => cfg.incDecDispatched
  | .nop | .hlt | .prn | .pop | .push | .ldi | .add | .mul | .and => true

/-! ## This hardware's parameters (R6, R88) -/

/-- The default opcode assignment of 30_encoding.md R88: the spec's own choice, not its source's (UNVERIFIED, log entry 1). -/
def Opc.default : Opc where
  nop := 0b00000000
  hlt := 0b00000001
  prn := 0b01000011
  pop := 0b01001100
  push := 0b01001101
  inc := 0b01111000
  dec := 0b01111001
  ldi := 0b10011001
  add := 0b10101000
  mul := 0b10101010
  and := 0b10110011

/-- This hardware: every parameter at the value 00_scope.md R6 gives (decided values: UNVERIFIED, log entries 1, 6, 7, 8);
the three OPEN ones at zero (DESIGN CHOICE, log entries 2, 3, 4). -/
def Config.hw : Config where
  addrWidth := 8
  pcWidth := 8
  memSize := 256
  spReg := 7
  spInit := 0xF4
  resetPc := 0
  incDecDispatched := true
  opc := Opc.default
  gprReset := Vector.replicate 8 0
  irReset := 0
  memInit := []

/-! ## Lookup and decoding -/

/-- The dispatch-table lookup of 40_cycle_and_dispatch.md R118: by equality of all eight bits (30_encoding.md R94), total,
with two answers. -/
def lookup (cfg : Config) (op : Byte) : Option Mnemonic :=
  Mnemonic.all.find? fun m => cfg.dispatches m && cfg.opc.byte m == op

/-- Handing a handler both operand bytes (R115, R118): it takes those it uses (the table of R89) and ignores the others. -/
def assemble (m : Mnemonic) (opA opB : Byte) : Instr :=
  match m with
  | .nop => .nop
  | .hlt => .hlt
  | .prn => .prn opA
  | .pop => .pop opA
  | .push => .push opA
  | .inc => .inc opA
  | .dec => .dec opA
  | .ldi => .ldi opA opB
  | .add => .add opA opB
  | .mul => .mul opA opB
  | .and => .and opA opB

/-- Why bytes are no instruction. -/
inductive DecodeError where
  /-- The byte has no dispatch-table entry (30_encoding.md R90): the implicit halt of a tick. -/
  | unknownOpcode (op : Byte)
  /-- A list of bytes ends before the declared operands do. A tick never sees it: it always fetches three bytes. -/
  | truncated
deriving DecidableEq, Repr

/-- What a tick decodes from its three fetched bytes (R110 actions 2 to 4). -/
def decodeBytes (cfg : Config) (op opA opB : Byte) : Except DecodeError Instr :=
  match lookup cfg op with
  | none => .error (.unknownOpcode op)
  | some m => .ok (assemble m opA opB)

/-- The decoder of 30_encoding.md R94 on any bytes: the instruction at the front of the list, and the bytes after its
`n + 1` bytes. -/
def decode (cfg : Config) : List Byte → Except DecodeError (Instr × List Byte)
  | [] => .error .truncated
  | op :: rest =>
    match decodeBytes cfg op (rest.getD 0 0) (rest.getD 1 0) with
    | .error e => .error e
    | .ok i =>
      let n := (operandCount op).toNat
      if rest.length < n then .error .truncated else .ok (i, rest.drop n)

/-! ## Encoding (R83, R89) -/

/-- The mnemonic of an instruction. -/
def Instr.mnemonic : Instr → Mnemonic
  | .nop => .nop
  | .hlt => .hlt
  | .prn _ => .prn
  | .pop _ => .pop
  | .push _ => .push
  | .inc _ => .inc
  | .dec _ => .dec
  | .ldi _ _ => .ldi
  | .add _ _ => .add
  | .mul _ _ => .mul
  | .and _ _ => .and

/-- The operand bytes of an instruction, operand A first. -/
def Instr.operands : Instr → List Byte
  | .nop | .hlt => []
  | .prn a | .pop a | .push a | .inc a | .dec a => [a]
  | .ldi a v => [a, v]
  | .add a b | .mul a b | .and a b => [a, b]

/-- The opcode byte of an instruction. -/
def opcodeOf (cfg : Config) (i : Instr) : Byte := cfg.opc.byte i.mnemonic

/-- The bytes of an instruction in ascending address order (20_memory.md R55, 30_encoding.md R83). -/
def encode (cfg : Config) (i : Instr) : List Byte := opcodeOf cfg i :: i.operands

/-! ## The opcode table's numbering of bits -/

/-- Byte `k` of an instruction whose bits are `w` on `nbits` bits, numbered as spec/opcode_table.json numbers them (bit 0 is
the least significant bit of the first byte); a bit at or above `nbits` is 0. -/
def tableByte (nbits w k : Nat) : Byte := BitVec.ofNat 8 (w % 2 ^ nbits / 2 ^ (8 * k))

/-- The instruction the decoder reads from the bits `w`. -/
def decodeTableWord (nbits w : Nat) : Option Instr :=
  match decodeBytes Config.hw (tableByte nbits w 0) (tableByte nbits w 1) (tableByte nbits w 2) with
  | .ok i => some i
  | .error _ => none

end Sys2Proof
end

