-- ==== Sys2Proof/Machine/State.lean ====
section
/-! DEFINITION. The state of the machine (10_state.md R20: "the following, and nothing else"), as plain data, and the state
after reset (R39, 70_reset_and_hazards.md R240). -/

namespace Sys2Proof.Machine

/-- The two states of the Execution Engine (R30). -/
inductive RunState where
  | running
  | halted
deriving DecidableEq, Repr

/-- The causes the fault latch can hold (R31, 60_exceptions.md R210). R210's third, AluUnknownOp, is recorded nowhere: it is
the one constructor of `Fault`. -/
inductive FaultCause where
  /-- RegIndexFault(i): an operand byte used as a register index is above 7 (60_exceptions.md R212). -/
  | regIndex (i : Byte)
  /-- MemRangeFault(a): the memory refuses the address (R213); impossible at MEM_SIZE = 256. -/
  | memRange (a : Addr)
deriving DecidableEq, Repr

/-- The machine's whole state (R20). -/
structure State where
  /-- `x[0]` .. `x[7]` (R21); the stack pointer is one of them (R25). -/
  regs : Vector Byte 8
  /-- The program counter (R26). -/
  pc : Addr
  /-- The instruction register (R29). -/
  ir : Byte
  /-- The state of the Execution Engine (R30). -/
  run : RunState
  /-- The terminal fault latch (R31). -/
  fault : Option FaultCause
  /-- Everything PRN has emitted, oldest first (R32). -/
  out : List Byte
  /-- The 256 bytes behind the memory port (R37). -/
  mem : Memory
deriving DecidableEq, Repr

/-- Why a step could stop without a next state. Every event of 60_exceptions.md R210 that can occur leaves a state the spec
describes (a halt, or the latch of R31), so each of those is a next state (log entry 5), and no step ends in a Fault. -/
inductive Fault where
  /-- AluUnknownOp (60_exceptions.md R214): the ALU is given an operation it does not have; R210 records it nowhere. Raised by
  nothing: the selector `AluOp` has the five values of 44_alu.md R170, as R179 allows. Safe: nothing is claimed by it. -/
  | aluUnknownOp
deriving DecidableEq, Repr

/-- Why an instruction could have no meaning. -/
inductive Refusal where
  /-- Raised by an arm of `exec` whose instruction has no meaning yet. Safe: nothing is claimed of such an instruction. No
  arm raises it: every instruction has its meaning. -/
  | notModelled (mnemonic : String)
deriving DecidableEq, Repr

/-- The state after reset under any parameters (R39, R240). The OPEN values of R39 are the configuration's; memory is as the
Memory holds it before the loader writes. -/
def State.resetOf (cfg : Config) : State where
  regs := cfg.gprReset.set cfg.spReg cfg.spInit
  pc := cfg.resetPc
  ir := cfg.irReset
  run := .running
  fault := none
  out := []
  mem := cfg.memInit

/-- The state of this hardware right after reset: `pc = 0`, RUNNING, `x[7] = 0xF4`, no fault, nothing emitted, memory with
nothing listed; `x[0..6]` and `ir`, which R39 leaves unspecified, are zero (DESIGN CHOICE, log entries 2 and 3: unsafe). -/
def State.reset : State := State.resetOf Config.hw

end Sys2Proof.Machine
end

