-- ==== Sys2Proof/Machine/Ops.lean ====
section
/-! DEFINITION. The named operations over memory, registers and control state: the memory's canonical form, the two
transactions of the memory port, register access, halting, taking a fault, and the PC advance. -/

namespace Sys2Proof

/-! ## Wrapping to a width -/

/-- A number held in `w` bits: modulo 2^w. With 8 bits every `Addr` is one already. -/
def wrapTo (w : Nat) (a : Addr) : Addr := if w < 8 then BitVec.ofNat 8 (a.toNat % 2 ^ w) else a

/-! ## Memory -/

/-- What an address the list does not name reads as. The spec leaves the content of unwritten memory open (20_memory.md R68,
D9): zero is a DESIGN CHOICE (log entry 4; unsafe only for a claim about `State.reset` itself, since a list can name any
contents). -/
def Memory.unlisted : Byte := 0

/-- The byte at an address (20_memory.md R51). -/
def Memory.read : Memory → Nat → Byte
  | [], _ => Memory.unlisted
  | (b, w) :: m, a => if a = b then w else Memory.read m a

/-- Storing a byte at an address (R51), in the canonical form: an entry is kept only for a byte that an unlisted address
would not read as. -/
def Memory.write : Memory → Nat → Byte → Memory
  | [], a, v => if v = Memory.unlisted then [] else [(a, v)]
  | (b, w) :: m, a, v =>
    if a < b then
      if v = Memory.unlisted then (b, w) :: m else (a, v) :: (b, w) :: m
    else if a = b then
      if v = Memory.unlisted then m else (a, v) :: m
    else (b, w) :: Memory.write m a v

/-- The canonical form: addresses 0..255 strictly rising, no byte equal to what an unlisted address reads as. -/
def Memory.wf : Memory → Bool
  | [] => true
  | (a, v) :: m => decide (a < 256) && v != Memory.unlisted && m.all (fun c => decide (a < c.1)) && Memory.wf m

namespace Machine

/-! ## Registers -/

/-- `x[i]` (00_scope.md R8). No register is hard-wired (10_state.md R21). -/
def State.reg (s : State) (r : RegIndex) : Byte := s.regs[r]

/-- `x[i] <- v` (R8); a byte is already modulo 256 (10_state.md R22). -/
def State.setReg (s : State) (r : RegIndex) (v : Byte) : State := { s with regs := s.regs.set r v }

/-- `pc <- t`. -/
def State.setPc (s : State) (t : Addr) : State := { s with pc := t }

/-- `ir <- v` (10_state.md R29). -/
def State.setIr (s : State) (v : Byte) : State := { s with ir := v }

/-- `out <- out ++ [v]` (43_prn.md R160). -/
def State.emit (s : State) (v : Byte) : State := { s with out := s.out ++ [v] }

/-- The byte at a memory address, as inspection shows it (60_exceptions.md R226). -/
def State.byteAt (s : State) (a : Addr) : Byte := s.mem.read a.toNat

/-- `mem[a] <- v`, every other location unchanged (20_memory.md R51). -/
def State.store (s : State) (a : Addr) (v : Byte) : State := { s with mem := s.mem.write a.toNat v }

/-! ## Halting and faulting -/

/-- `run <- HALTED` (41_halt_nop.md R140, 40_cycle_and_dispatch.md R114). -/
def State.halt (s : State) : State := { s with run := .halted }

/-- Taking a fault, for every fault there is (60_exceptions.md R212, R213, R218): the latch records the cause, `ir` and `pc`
stay as the record of the offending opcode and its address, nothing is saved and control goes nowhere. There is no return
beside it: a fault is absorbing, and only reset clears it (R219). -/
def State.raise (s : State) (c : FaultCause) : State := { s with fault := some c }

/-- The machine makes no further step: HALTED, or a fault is latched (10_state.md R38). -/
def State.stopped (s : State) : Bool := s.run == .halted || s.fault.isSome

/-! ## The memory port (20_memory.md R51, R52) -/

/-- `MemRead(a, 1)`: the byte, or MemRangeFault(a) at or above MEM_SIZE. It changes nothing (R58). -/
def memRead (cfg : Config) (a : Addr) (s : State) : Except FaultCause Byte :=
  if a.toNat < cfg.memSize then .ok (s.byteAt a) else .error (.memRange a)

/-- `MemWrite(a, 1, v)`: the state with the byte stored, or MemRangeFault(a) at or above MEM_SIZE. -/
def memWrite (cfg : Config) (a : Addr) (v : Byte) (s : State) : Except FaultCause State :=
  if a.toNat < cfg.memSize then .ok (s.store a v) else .error (.memRange a)

/-- The address of operand byte `k` (1 or 2) of an instruction at `pc`: `(pc + k) mod 2^ADDR_WIDTH` (20_memory.md R69). -/
def fetchAddr (cfg : Config) (pc k : Addr) : Addr := wrapTo cfg.addrWidth (pc + k)

/-! ## The PC advance -/

/-- Action 5 of the tick (40_cycle_and_dispatch.md R116): `pc <- (pc + n + 1) mod 2^PC_WIDTH`, with `n` the DECLARED count in
`ir`, not the number of operands the handler used. -/
def State.advance (cfg : Config) (s : State) : State := s.setPc (wrapTo cfg.pcWidth (s.pc + operandCount s.ir + 1))

end Machine

end Sys2Proof
end

