-- ==== Sys2Proof/Machine/Operands.lean ====
section
/-! DEFINITION. The operand forms (30_encoding.md R84 to R86): a register operand is a whole byte that must be 0..7; an
immediate is a whole byte taken as it stands, so it needs no operation of its own. -/

namespace Sys2Proof.Machine

/-- The register a byte names, if it names one (R85): not masked, clamped or wrapped. -/
def regOperand (b : Byte) : Option RegIndex :=
  if h : b.toNat < 8 then some ⟨b.toNat, h⟩ else none

/-- The check of one register operand before the handler has any effect (40_cycle_and_dispatch.md R115): the handler runs
with the register, or the tick ends in RegIndexFault of the byte (60_exceptions.md R212). -/
def withReg (b : Byte) (s : State) (handler : RegIndex → State) : State :=
  match regOperand b with
  | some r => handler r
  | none => s.raise (.regIndex b)

/-- The check of both register operands, operand A first (R212, R217). -/
def withRegs (a b : Byte) (s : State) (handler : RegIndex → RegIndex → State) : State :=
  withReg a s fun ra => withReg b s fun rb => handler ra rb

end Sys2Proof.Machine
end

