-- ==== Sys2Proof/Machine/Flags.lean ====
section
/-! DEFINITION. What the ALU computes (44_alu.md section 1). THERE ARE NO FLAGS: no carry, overflow, zero or sign is
recorded anywhere (10_state.md R35, 44_alu.md R180), so the only computation here is the result. -/

namespace Sys2Proof.Machine

/-- The ALU's operation selector: five names, no encoding (44_alu.md R170, R179). -/
inductive AluOp where
  | add | mul | and | inc | dec
deriving DecidableEq, Repr

/-- The result of each operation on the destination's value `p` and the source's value `q`: exact, then modulo 256 (R171).
INC and DEC ignore the source. -/
def aluResult (op : AluOp) (p q : Byte) : Byte :=
  match op with
  | .add => p + q
  | .mul => p * q
  | .and => p &&& q
  | .inc => p + 1
  | .dec => p - 1

end Sys2Proof.Machine
end

