-- ==== Sys2Proof/Machine/Alu.lean ====
section
/-! DEFINITION. The ALU and the instructions that call it: ADD, MUL, AND, INC, DEC (44_alu.md). -/

namespace Sys2Proof.Machine

/-- The ALU's one contract (R170): `apply(operation, dest, source)`, mutating `dest` in place and touching nothing else. -/
def aluApply (op : AluOp) (dest src : RegIndex) (s : State) : State :=
  s.setReg dest (aluResult op (s.reg dest) (s.reg src))

/-- The handlers of ADD, MUL and AND (R172 to R174): both operands are registers, the first is also the destination. -/
def handleAlu2 (cfg : Config) (op : AluOp) (a b : Byte) (s : State) : State :=
  withRegs a b s fun ra rb => (aluApply op ra rb s).advance cfg

/-- The handlers of INC and DEC (R175, R176): operand A only; the source index the ALU is given is ignored (R170). -/
def handleAlu1 (cfg : Config) (op : AluOp) (a : Byte) (s : State) : State :=
  withReg a s fun r => (aluApply op r r s).advance cfg

/-- The meaning of ADD (R172). -/
def execAdd (a b : Byte) (s : State) : Host.Outcome State Fault Refusal := .next (handleAlu2 Config.hw .add a b s)

/-- The meaning of MUL (R173). -/
def execMul (a b : Byte) (s : State) : Host.Outcome State Fault Refusal := .next (handleAlu2 Config.hw .mul a b s)

/-- The meaning of AND (R174). -/
def execAnd (a b : Byte) (s : State) : Host.Outcome State Fault Refusal := .next (handleAlu2 Config.hw .and a b s)

/-- The meaning of INC (R175). -/
def execInc (a : Byte) (s : State) : Host.Outcome State Fault Refusal := .next (handleAlu1 Config.hw .inc a s)

/-- The meaning of DEC (R176). -/
def execDec (a : Byte) (s : State) : Host.Outcome State Fault Refusal := .next (handleAlu1 Config.hw .dec a s)

end Sys2Proof.Machine
end

