-- ==== Sys2Proof/Machine/Halt.lean ====
section
/-! DEFINITION. HLT and NOP (41_halt_nop.md). -/

namespace Sys2Proof.Machine

/-- HLT (R140): `run <- HALTED`; then the PC advances past the HLT, as for every dispatched instruction. -/
def handleHlt (cfg : Config) (s : State) : State := s.halt.advance cfg

/-- NOP (R141): no effect; then the PC advances. -/
def handleNop (cfg : Config) (s : State) : State := s.advance cfg

/-- The meaning of HLT (R140). -/
def execHlt (s : State) : Host.Outcome State Fault Refusal := .next (handleHlt Config.hw s)

/-- The meaning of NOP (R141). -/
def execNop (s : State) : Host.Outcome State Fault Refusal := .next (handleNop Config.hw s)

end Sys2Proof.Machine
end

