-- ==== Sys2Proof/Machine/Load.lean ====
section
/-! DEFINITION. LDI (42_ldi.md). -/

namespace Sys2Proof.Machine

/-- LDI a, v (R150): `x[a] <- v`, bypassing the ALU; the immediate is never checked. -/
def handleLdi (cfg : Config) (a v : Byte) (s : State) : State :=
  withReg a s fun r => (s.setReg r v).advance cfg

/-- The meaning of LDI (R150). -/
def execLdi (a v : Byte) (s : State) : Host.Outcome State Fault Refusal := .next (handleLdi Config.hw a v s)

end Sys2Proof.Machine
end

