-- ==== Sys2Proof/Machine/Print.lean ====
section
/-! DEFINITION. PRN (43_prn.md). -/

namespace Sys2Proof.Machine

/-- PRN a (R160): `out <- out ++ [x[a]]`. -/
def handlePrn (cfg : Config) (a : Byte) (s : State) : State :=
  withReg a s fun r => (s.emit (s.reg r)).advance cfg

/-- The meaning of PRN (R160). -/
def execPrn (a : Byte) (s : State) : Host.Outcome State Fault Refusal := .next (handlePrn Config.hw a s)

end Sys2Proof.Machine
end

