-- ==== Sys2Proof/Machine/Stack.lean ====
section
/-! DEFINITION. PUSH and POP (45_stack.md): the stack is a region of the one memory, addressed through the stack pointer,
growing down; nothing about it is checked (R193). -/

namespace Sys2Proof.Machine

/-- The effective address of PUSH: the decremented stack pointer, modulo 256 (R191, R196). -/
def pushAddr (cfg : Config) (s : State) : Addr := s.reg cfg.spReg - 1

/-- The effective address of POP: the stack pointer (R192, R196). -/
def popAddr (cfg : Config) (s : State) : Addr := s.reg cfg.spReg

/-- PUSH a (R191): decrement the stack pointer, then write `x[a]`, READ AFTER THE DECREMENT, at the new stack pointer. If the
memory refuses the address, the decrement stands (60_exceptions.md R213). -/
def handlePush (cfg : Config) (a : Byte) (s : State) : State :=
  withReg a s fun r =>
    let s1 := s.setReg cfg.spReg (pushAddr cfg s)
    match memWrite cfg (s1.reg cfg.spReg) (s1.reg r) s1 with
    | .ok s2 => s2.advance cfg
    | .error c => s1.raise c

/-- POP a (R192): read the byte at the stack pointer into `x[a]`, then increment the stack pointer, READ AFTER THAT WRITE. -/
def handlePop (cfg : Config) (a : Byte) (s : State) : State :=
  withReg a s fun r =>
    match memRead cfg (popAddr cfg s) s with
    | .ok v =>
      let s1 := s.setReg r v
      (s1.setReg cfg.spReg (s1.reg cfg.spReg + 1)).advance cfg
    | .error c => s.raise c

/-- The meaning of PUSH (R191). -/
def execPush (a : Byte) (s : State) : Host.Outcome State Fault Refusal := .next (handlePush Config.hw a s)

/-- The meaning of POP (R192). -/
def execPop (a : Byte) (s : State) : Host.Outcome State Fault Refusal := .next (handlePop Config.hw a s)

end Sys2Proof.Machine
end

