-- ==== Sys2Proof/Machine/Dispatch.lean ====
section
/-! DEFINITION. One arm per instruction: its meaning, from the state the fetch leaves (`ir` holds the opcode) to the end of
the tick: the register-operand check, the handler, the PC advance (40_cycle_and_dispatch.md R115, R116, R117). -/

namespace Sys2Proof.Machine

def exec (i : Instr) (s : State) : Host.Outcome State Fault Refusal :=
  match i with
  | .nop => Sys2Proof.Machine.execNop s
  | .hlt => Sys2Proof.Machine.execHlt s
  | .prn a => Sys2Proof.Machine.execPrn a s
  | .pop a => Sys2Proof.Machine.execPop a s
  | .push a => Sys2Proof.Machine.execPush a s
  | .inc a => Sys2Proof.Machine.execInc a s
  | .dec a => Sys2Proof.Machine.execDec a s
  | .ldi a v => Sys2Proof.Machine.execLdi a v s
  | .add a b => Sys2Proof.Machine.execAdd a b s
  | .mul a b => Sys2Proof.Machine.execMul a b s
  | .and a b => Sys2Proof.Machine.execAnd a b s

end Sys2Proof.Machine
end

