-- ==== Sys2Proof/Machine/Fetch.lean ====
section
/-! DEFINITION. The first half of the tick (40_cycle_and_dispatch.md R110, actions 1 to 4): fetch the opcode, fetch both
operand bytes whatever the count, look the handler up; and placing bytes where the next fetch reads them. -/

namespace Sys2Proof.Machine

/-- What the fetch and the lookup come to. -/
inductive Fetched where
  /-- The opcode has a handler: the instruction with its operand bytes, and the state with `ir` written. -/
  | instr (i : Instr) (s : State)
  /-- The tick is over in this state: an implicit halt, or a MemRangeFault on a fetch. -/
  | done (s : State)
deriving DecidableEq, Repr

/-- Actions 1 to 4 of the tick. `ir` is written once the opcode is read (R111); both operand bytes are read at `(pc+1) mod
2^ADDR_WIDTH` and `(pc+2) mod 2^ADDR_WIDTH` in every tick (R113, 20_memory.md R69), before the lookup; a lookup miss halts
with the PC where it is (R114). A fetch the memory refuses ends the tick with what came before it standing (60_exceptions.md R213). -/
def fetch (cfg : Config) (s : State) : Fetched :=
  match memRead cfg s.pc s with
  | .error c => .done (s.raise c)
  | .ok op =>
    let s1 := s.setIr op
    match memRead cfg (fetchAddr cfg s1.pc 1) s1 with
    | .error c => .done (s1.raise c)
    | .ok opA =>
      match memRead cfg (fetchAddr cfg s1.pc 2) s1 with
      | .error c => .done (s1.raise c)
      | .ok opB =>
        match decodeBytes cfg op opA opB with
        | .error _ => .done s1.halt
        | .ok i => .instr i s1

/-- The start of a tick: a halted or faulted machine does nothing at all (R120, 10_state.md R38); otherwise actions 1 to 4. -/
def startTick (cfg : Config) (s : State) : Fetched :=
  if s.stopped then .done s else fetch cfg s

/-- The three bytes of an instruction word (bits numbered as the opcode table numbers them) at the fetch addresses of the
next tick. A halted or faulted machine fetches nothing (R120), so the fetch also needs RUNNING and no fault. -/
def placeWord (cfg : Config) (s : State) (nbits w : Nat) : State :=
  let s1 := ((s.store s.pc (tableByte nbits w 0)).store (fetchAddr cfg s.pc 1) (tableByte nbits w 1)).store
    (fetchAddr cfg s.pc 2) (tableByte nbits w 2)
  { s1 with run := .running, fault := none }

end Sys2Proof.Machine
end

