-- ==== Sys2Proof/Machine/Step.lean ====
section
/-! DEFINITION. The one step of the machine: a tick of this hardware (40_cycle_and_dispatch.md R110). -/

namespace Sys2Proof.Machine

/-- One tick (R110). A halted or faulted machine does nothing (R120); otherwise fetch, decode and look up, and run the
instruction's meaning, which ends with the PC advance. -/
def step (s : State) : Host.Outcome State Fault Refusal :=
  match startTick Config.hw s with
  | .instr i s1 => exec i s1
  | .done s1 => .next s1

/-- `s` with an instruction's bits stored where `step` fetches its next instruction. -/
def State.withFetchWord (s : State) (nbits w : Nat) : State := placeWord Config.hw s nbits w

end Sys2Proof.Machine
end

