-- ==== Sys2Proof/Machine/Tick.lean ====
section
/-! DEFINITION. The tick under ANY parameters of 00_scope.md R6, over the same fetch and the same handlers as `step`, so that
a claim can be stated for every opcode assignment (30_encoding.md R87), either value of INCDEC_DISPATCHED, any place of the
stack pointer, a memory smaller than 256 bytes (20_memory.md R52), and narrower addresses or PC (00_scope.md R6, decisions D5,
D6). At `Config.hw` it is `step` (Laws/Step.lean). -/

namespace Sys2Proof.Machine

/-- The handler of each instruction (40_cycle_and_dispatch.md R117), with the operand check before it (R115) and the PC
advance after it (R116). -/
def perform (cfg : Config) (i : Instr) (s : State) : State :=
  match i with
  | .nop => handleNop cfg s
  | .hlt => handleHlt cfg s
  | .prn a => handlePrn cfg a s
  | .pop a => handlePop cfg a s
  | .push a => handlePush cfg a s
  | .inc a => handleAlu1 cfg .inc a s
  | .dec a => handleAlu1 cfg .dec a s
  | .ldi a v => handleLdi cfg a v s
  | .add a b => handleAlu2 cfg .add a b s
  | .mul a b => handleAlu2 cfg .mul a b s
  | .and a b => handleAlu2 cfg .and a b s

/-- One tick (R110). -/
def tick (cfg : Config) (s : State) : State :=
  match startTick cfg s with
  | .instr i s1 => perform cfg i s1
  | .done s1 => s1

end Sys2Proof.Machine
end

