-- ==== Sys2Proof/Machine/HostPort.lean ====
section
/-! DEFINITION. What the host does to the machine (60_exceptions.md R228, 00_scope.md R10): load, drive, read the output, and a
whole session of host events. Reset is `State.resetOf` and `State.reset`; inspection is reading the state (R226). -/

namespace Sys2Proof.Machine

/-- `poke(address, value)` (20_memory.md R67): `MemWrite(address, 1, value)` and nothing else, so an address at or above
MEM_SIZE is a MemRangeFault as for every access (R52, R53), and a machine with a fault latched is frozen (10_state.md R38). The
host may use it only between reset and the first tick: `hostMove` gives it no move after that. -/
def State.poke (cfg : Config) (s : State) (a : Addr) (v : Byte) : State :=
  if s.stopped then s
  else
    match memWrite cfg a v s with
    | .ok t => t
    | .error c => s.raise c

/-- Poking a list of bytes, each at its address, in order. -/
def State.pokeAll (cfg : Config) (s : State) : List (Addr × Byte) → State
  | [] => s
  | c :: rest => (s.poke cfg c.1 c.2).pokeAll cfg rest

/-- Poking a list of bytes at ascending addresses from `a`. An address is 8 bits, so after 255 comes 0: a list that runs past the
top goes on from the bottom (DESIGN CHOICE, log entry 17: the spec does not say). -/
def State.loadAt (cfg : Config) (s : State) (a : Addr) : List Byte → State
  | [] => s
  | v :: rest => (s.poke cfg a v).loadAt cfg (a + 1) rest

/-- Loading a program: its bytes at ascending addresses from 0 (R67, 70_reset_and_hazards.md R242). What a program of more than
256 bytes does is the model's choice, as in `State.loadAt`; no such program is ever `Loaded`. -/
def State.load (cfg : Config) (s : State) (prog : List Byte) : State := s.loadAt cfg 0 prog

/-- Driving the machine for at most `k` ticks: the loop of 40_cycle_and_dispatch.md R121, `while run = RUNNING and fault =
none: Tick()`, cut after `k` ticks. Single-stepping and the timed loop are both this; only the driver differs. -/
def drive (cfg : Config) : Nat → State → State
  | 0, s => s
  | k + 1, s => if s.stopped then s else drive cfg k (tick cfg s)

/-! ## A session of the host (60_exceptions.md R228) -/

/-- What a host could do after reset: the rows of R228, and the writes R228 assumes never to happen. A tick is two events, so
that asking for one while another is in progress can be said (log entry 11). -/
inductive HostEvent where
  /-- `poke(a, v)`. -/
  | poke (a : Addr) (v : Byte)
  /-- A tick is requested. -/
  | tickRequest
  /-- The requested tick completes. -/
  | tickDone
  /-- The host reads the output. -/
  | readOutput
  /-- The host inspects registers and memory. -/
  | inspect
  /-- Any other write to a register, by the host or another writer: assumed never to happen. -/
  | writeReg (r : RegIndex) (v : Byte)
  /-- Any other write to memory, by the host or another writer: assumed never to happen. -/
  | writeMem (a : Addr) (v : Byte)
deriving DecidableEq, Repr

/-- Where a session stands: before the first tick, between ticks (after the halt as well), inside a tick. -/
inductive HostPhase where
  | loading
  | between
  | inTick
deriving DecidableEq, Repr

/-- One host event (R228, R226, 00_scope.md R5): the phase and the state after it, or no move. There is none for a poke once a
tick has been requested, for any other write, for a second tick inside a tick, and for reading anything inside one. A tick is
atomic (40_cycle_and_dispatch.md R122): the state changes when it completes. -/
def hostMove (cfg : Config) (p : HostPhase) (s : State) (e : HostEvent) : Option (HostPhase × State) :=
  match e, p with
  | .poke a v, .loading => some (.loading, s.poke cfg a v)
  | .poke _ _, .between | .poke _ _, .inTick => none
  | .tickRequest, .loading | .tickRequest, .between => some (.inTick, s)
  | .tickRequest, .inTick => none
  | .tickDone, .inTick => some (.between, tick cfg s)
  | .tickDone, .loading | .tickDone, .between => none
  | .readOutput, .loading | .readOutput, .between | .inspect, .loading | .inspect, .between => some (p, s)
  | .readOutput, .inTick | .inspect, .inTick => none
  | .writeReg _ _, _ | .writeMem _ _, _ => none

/-- A session: host events in order, from a phase and a state; none as soon as one has no move. -/
def session (cfg : Config) (p : HostPhase) (s : State) : List HostEvent → Option (HostPhase × State)
  | [] => some (p, s)
  | e :: es =>
    match hostMove cfg p s e with
    | none => none
    | some (q, t) => session cfg q t es

/-- The address and byte an event pokes, if it pokes. -/
def HostEvent.poked : HostEvent → Option (Addr × Byte)
  | .poke a v => some (a, v)
  | .tickRequest | .tickDone | .readOutput | .inspect | .writeReg _ _ | .writeMem _ _ => none

/-- The pokes of a session, in order. -/
def pokesOf (es : List HostEvent) : List (Addr × Byte) := es.filterMap HostEvent.poked

/-- How many ticks complete in a session. -/
def ticksOf (es : List HostEvent) : Nat := es.count .tickDone

/-! ## The output's text -/

/-- The character of a decimal digit. -/
def digitChar (d : Nat) : Char := ['0', '1', '2', '3', '4', '5', '6', '7', '8', '9'].getD d '0'

/-- The decimal numeral of a number below 1000, without leading zeros. -/
def numeral (n : Nat) : List Char :=
  if n < 10 then [digitChar n]
  else if n < 100 then [digitChar (n / 10), digitChar (n % 10)]
  else [digitChar (n / 100), digitChar (n / 10 % 10), digitChar (n % 10)]

/-- The decimal numeral of an emitted value: 0..255, unsigned, no leading zeros, no padding (43_prn.md R161). -/
def decimal (v : Byte) : List Char := numeral v.toNat

/-- The text of one emitted value: its numeral and a line feed (R161; the line feed is the spec's decision D14). -/
def outputLine (v : Byte) : List Char := decimal v ++ ['\n']

/-- The text of a run: the lines of what was emitted, in order (R161, R162). -/
def outputText (out : List Byte) : List Char := out.flatMap outputLine

end Sys2Proof.Machine
end

