-- ==== Sys2Proof/WellFormed.lean ====
section
/-! DEFINITION. Well-formedness: which instructions name registers only (30_encoding.md R85), and which configurations the
spec allows (00_scope.md R6, 30_encoding.md R87). An ill-formed instruction is no hole in the model: it runs, and takes
RegIndexFault. An ill-formed configuration is what 93_implementation_defined.md U14 asks a model to refuse: no claim is made of one. -/

namespace Sys2Proof

/-- A register operand must be in 0..7: the whole byte counts, and it is not masked (R85). -/
def regOk (b : Byte) : Bool := b.toNat < 8

/-- An instruction is well formed when every operand byte it uses as a register index is 0..7. The immediate of LDI is
never checked (R85, R86). -/
def Instr.wellFormed : Instr → Bool
  | .nop | .hlt => true
  | .prn a | .pop a | .push a | .inc a | .dec a => regOk a
  | .ldi a _ => regOk a
  | .add a b | .mul a b | .and a b => regOk a && regOk b

/-- Constraint 1 of R87: different mnemonics have different opcode bytes. -/
def Opc.distinct (o : Opc) : Bool :=
  Mnemonic.all.all fun m => Mnemonic.all.all fun k => m == k || o.byte m != o.byte k

/-- Constraint 2 of R87: bits 7:6 of the opcode equal the number of operand bytes. -/
def Opc.countsAgree (o : Opc) : Bool :=
  Mnemonic.all.all fun m => (operandCount (o.byte m)).toNat == m.arity

/-- Constraint 3 of R87: bit 5 is 1 exactly for an ALU operation. -/
def Opc.aluBitsAgree (o : Opc) : Bool :=
  Mnemonic.all.all fun m => aluFlag (o.byte m) == m.isAlu

/-- The three constraints of R87 on an opcode assignment. -/
def Opc.legal (o : Opc) : Bool := o.distinct && o.countsAgree && o.aluBitsAgree

/-- The widths of R6 fit the storage, the memory is within reach of an address (MEM_SIZE is at most 2^ADDR_WIDTH, 20_memory.md
R50, R52), and RESET_PC is a value the PC can hold. -/
def Config.widthsFit (cfg : Config) : Bool :=
  decide (cfg.addrWidth ≤ 8) && decide (cfg.pcWidth ≤ 8) && decide (cfg.memSize ≤ 2 ^ cfg.addrWidth) &&
    decide (cfg.resetPc.toNat < 2 ^ cfg.pcWidth)

/-- A configuration the spec allows: a legal assignment and widths that fit. -/
def Config.legal (cfg : Config) : Bool := cfg.opc.legal && cfg.widthsFit

end Sys2Proof
end

