-- ==== Sys2Proof/Safety.lean ====
section
/-! DEFINITION. The terms claims use: how a run ends, what it is for a machine to have gone wrong, the premises of a run, the
invariant of the machine, which registers an instruction reads and writes, and frames. -/

namespace Sys2Proof

/-- The registers a list of operand bytes names; a byte above 7 names none. -/
def namedRegs (bs : List Byte) : List RegIndex := bs.filterMap Machine.regOperand

/-- The "reads" column of 10_state.md R24 (the registers the operands name, and the stack pointer). -/
def Instr.reads (cfg : Config) : Instr → List RegIndex
  | .nop | .hlt | .ldi _ _ => []
  | .prn a | .inc a | .dec a => namedRegs [a]
  | .add a b | .mul a b | .and a b => namedRegs [a, b]
  | .push a => cfg.spReg :: namedRegs [a]
  | .pop _ => [cfg.spReg]

/-- The "writes" column of R24. -/
def Instr.writes (cfg : Config) : Instr → List RegIndex
  | .nop | .hlt | .prn _ => []
  | .ldi a _ | .add a _ | .mul a _ | .and a _ | .inc a | .dec a => namedRegs [a]
  | .push _ => [cfg.spReg]
  | .pop a => cfg.spReg :: namedRegs [a]

/-- The operand byte a tick reports as RegIndexFault, if any: operand A first, then operand B (60_exceptions.md R212, R217). -/
def Instr.badOperand : Instr → Option Byte
  | .nop | .hlt => none
  | .prn a | .pop a | .push a | .inc a | .dec a | .ldi a _ => if regOk a then none else some a
  | .add a b | .mul a b | .and a b => if !regOk a then some a else if !regOk b then some b else none

/-- A configuration that agrees with this hardware on every parameter R6 gives a value: only GPR_RESET, IR_RESET and
MEM_INIT are its own. -/
def Config.isHw (cfg : Config) : Prop :=
  { cfg with gprReset := Config.hw.gprReset, irReset := Config.hw.irReset, memInit := Config.hw.memInit } = Config.hw

namespace Machine

/-! ## Ends of a run -/

/-- A run is over: HALTED with no fault (70_reset_and_hazards.md R253). -/
abbrev State.EndOfRun (s : State) : Prop := s.run = .halted ∧ s.fault = none

/-- The machine has gone wrong: a latched fault, never an end of the run (R253, 60_exceptions.md R212). -/
abbrev State.GoneWrong (s : State) : Prop := s.fault ≠ none

/-- The end is HLT's: `ir` holds its opcode (40_cycle_and_dispatch.md R124). -/
abbrev State.EndedByHlt (cfg : Config) (s : State) : Prop := s.EndOfRun ∧ s.ir = cfg.opc.hlt

/-- The end is an implicit halt's: `ir` holds an unassigned byte (R124, 60_exceptions.md R211). -/
abbrev State.EndedImplicitly (cfg : Config) (s : State) : Prop := s.EndOfRun ∧ lookup cfg s.ir = none

/-- The machine executes: RUNNING with no fault, so a tick starts (40_cycle_and_dispatch.md R110). -/
abbrev State.Executing (s : State) : Prop := s.run = .running ∧ s.fault = none

/-! ## The premises of a run (70_reset_and_hazards.md R254) -/

/-- `ResetState`: a state reset may leave this hardware in, whatever the OPEN parameters. -/
def State.ResetState (s : State) : Prop :=
  ∃ cfg : Config, Config.isHw cfg ∧ cfg.memInit.wf = true ∧ s = State.resetOf cfg

/-- The program's bytes stand at addresses 0 to L - 1: the first half of `Loaded`. Addresses end at 255, so no longer program
stands in memory, whatever its bytes (DEDUCED, log entry 17). -/
def State.Holds (s : State) (prog : List Byte) : Prop :=
  prog.length ≤ 256 ∧ ∀ k, k < prog.length → s.mem.read k = prog.getD k 0

/-- Every poke of a session is made before its first tick: the second half of `Loaded`. -/
def PokesFirst (es : List HostEvent) : Prop :=
  ∀ pre post : List HostEvent, es = pre ++ .tickRequest :: post → pokesOf post = []

/-- `Loaded`: in a session from `s`, every poke was made before the first tick, and they put the program's bytes at addresses
0 to L - 1, all of them addresses that memory has (DEDUCED, log entry 17). -/
def Loaded (cfg : Config) (s : State) (prog : List Byte) (es : List HostEvent) : Prop :=
  PokesFirst es ∧ prog.length ≤ cfg.memSize ∧ (s.pokeAll cfg (pokesOf es)).Holds prog

/-- `HostQuiet`: the host obeys the duties of 60_exceptions.md R228 in a session from `s`. Every event has a move, so no register
or memory byte is written after the first tick and no two ticks overlap; and no tick is requested of a stopped machine. -/
def HostQuiet (cfg : Config) (s : State) (es : List HostEvent) : Prop :=
  (session cfg .loading s es).isSome = true ∧
  ∀ (pre post : List HostEvent) (p : HostPhase) (t : State), es = pre ++ .tickRequest :: post →
    session cfg .loading s pre = some (p, t) → t.stopped = false

/-- The premises of a run, together (R254): the program `prog`, the session `es`, from the state `s`. -/
structure RunPremises (cfg : Config) (prog : List Byte) (es : List HostEvent) (s : State) : Prop where
  /-- `ResetState`, under the configuration's own OPEN parameters. -/
  reset : s = State.resetOf cfg ∧ cfg.memInit.wf = true
  /-- `Loaded`. -/
  loaded : Loaded cfg s prog es
  /-- `HostQuiet`. -/
  quiet : HostQuiet cfg s es
  /-- `Config`: every parameter R6 gives a value has it. -/
  config : cfg.isHw

/-! ## The invariant -/

/-- What holds of the machine at reset and after every tick: memory keeps its canonical form; the latch holds nothing but a
RegIndexFault of a byte above 7 (a MemRangeFault is impossible at MEM_SIZE = 256, 20_memory.md R52); and a faulted machine is
not HALTED (10_state.md R31). -/
def State.Inv (s : State) : Prop :=
  s.mem.wf = true ∧
  (∀ c, s.fault = some c → s.run = .running ∧ ∃ i : Byte, 8 ≤ i.toNat ∧ c = .regIndex i)

/-! ## Frames -/

/-- Every byte of memory reads as before. -/
def MemSame (s t : State) : Prop := ∀ a : Nat, t.mem.read a = s.mem.read a

/-- Every byte of memory outside the one at `a` reads as before. -/
def MemSameExcept (a : Addr) (s t : State) : Prop := ∀ b : Nat, b ≠ a.toNat → t.mem.read b = s.mem.read b

/-- Every register outside the list holds what it held. -/
def RegsSameExcept (rs : List RegIndex) (s t : State) : Prop := ∀ r, r ∉ rs → t.reg r = s.reg r

/-- The control state other than the PC, and the output, are unchanged: `ir`, `run`, `fault`, `out`. -/
def ControlSame (s t : State) : Prop := t.ir = s.ir ∧ t.run = s.run ∧ t.fault = s.fault ∧ t.out = s.out

/-- The PC has advanced by the declared length (40_cycle_and_dispatch.md R116); `len` is that length where `ir` holds the
opcode byte `op`, as it does in a tick. -/
def AdvancesBy (op : Byte) (len : Nat) (s t : State) : Prop :=
  t.pc = s.pc + operandCount s.ir + 1 ∧
  (s.ir = op → t.pc.toNat = (s.pc.toNat + len) % 256)

/-- What RegIndexFault of a byte leaves: the latch set, nothing else changed (60_exceptions.md R212). -/
def FaultsOn (b : Byte) (s t : State) : Prop := t = { s with fault := some (.regIndex b) }

/-- The three bytes the next tick fetches (40_cycle_and_dispatch.md R111, R113). -/
def State.Fetches (s : State) (op opA opB : Byte) : Prop :=
  s.byteAt s.pc = op ∧ s.byteAt (s.pc + 1) = opA ∧ s.byteAt (s.pc + 2) = opB

end Machine

end Sys2Proof
end

