-- ==== Sys2Proof/Certificates/Slice0/Obligations.lean ====
section
/-! DEFINITION. The statements for the provers. Each docstring names the rule of spec/ it formalises, and the spec's decision
(D<n>, 92_eei_decisions.md) or the log entry it rests on where there is one. -/

open Sys2Proof Sys2Proof.Machine

/-! ## Encoding and decoding -/

/-- R82: the operand count of a byte is the number its bits 7:6 form, depends on no other bit, and is 3 only for the bytes
0xC0..0xFF, none of which has a handler. -/
def Obligations.OperandCountIsTopTwoBits : Prop :=
  ∀ b : Byte, (operandCount b).toNat = (b.extractLsb' 6 2).toNat ∧
    ((operandCount b).toNat = 3 ↔ 0xC0 ≤ b.toNat) ∧
    (0xC0 ≤ b.toNat → lookup Config.hw b = none) ∧
    ∀ c : Byte, c.extractLsb' 6 2 = b.extractLsb' 6 2 → operandCount c = operandCount b

/-- Words written out from the encodings of 30_encoding.md R83 under the default assignment R88 (the spec's decision D1, log
entry 1) decode to their instructions. -/
def Obligations.SpecWordsDecode : Prop :=
  decodeTableWord 8 0b00000001 = some .hlt ∧
  decodeTableWord 16 0b00000101_01001101 = some (.push 5) ∧
  decodeTableWord 16 0b00000010_01111001 = some (.dec 2) ∧
  decodeTableWord 24 0b11001000_00000111_10011001 = some (.ldi 7 200) ∧
  decodeTableWord 24 0b00000001_00001001_10110011 = some (.and 9 1) ∧
  decodeTableWord 8 0b11111111 = none

/-- R94, R118: the lookup is by equality of all eight bits: under every assignment that meets R87 it answers exactly the
dispatched mnemonic whose byte it is given. -/
def Obligations.LookupIsWholeByteEquality : Prop :=
  ∀ (cfg : Config) (op : Byte) (m : Mnemonic), cfg.legal = true →
    (lookup cfg op = some m ↔ cfg.dispatches m = true ∧ cfg.opc.byte m = op)

/-- R91 (the spec's decision D21): under every assignment that meets R87 no byte with count 3 has a handler, and this
hardware's table has exactly the eleven bytes of R88. -/
def Obligations.UnassignedBytesMissTheTable : Prop :=
  (∀ (cfg : Config) (op : Byte), cfg.legal = true → (operandCount op).toNat = 3 → lookup cfg op = none) ∧
  (∀ op : Byte, lookup Config.hw op = none ↔
    op.toNat ∉ [0x00, 0x01, 0x43, 0x4C, 0x4D, 0x78, 0x79, 0x99, 0xA8, 0xAA, 0xB3])

/-- Decoding the encoding of any dispatched instruction, whatever bytes follow, gives the instruction and those bytes: for
every operand byte and for every opcode assignment that meets R87. -/
def Obligations.DecodeInvertsEncode : Prop :=
  ∀ (cfg : Config) (i : Instr) (rest : List Byte), cfg.legal = true → cfg.dispatches i.mnemonic = true →
    decode cfg (encode cfg i ++ rest) = .ok (i, rest)

/-- The other direction: bytes that decode are the encoding of what they decode to, followed by what is left. -/
def Obligations.EncodeInvertsDecode : Prop :=
  ∀ (cfg : Config) (bs : List Byte) (i : Instr) (rest : List Byte), cfg.legal = true →
    decode cfg bs = .ok (i, rest) → cfg.dispatches i.mnemonic = true ∧ encode cfg i ++ rest = bs

/-- R119: where an encoded instruction stands at the PC, the tick runs that instruction, and (well formed) moves the PC by
exactly its encoded length, modulo 2^PC_WIDTH: for every assignment that meets R87 and every PC_WIDTH, with the whole of memory
there. At this hardware's PC_WIDTH of 8, modulo 256, that is the spec's decision D6; what other widths do is the model's choice
(log entry 8, DESIGN CHOICE). -/
def Obligations.TickRunsEncodedInstruction : Prop :=
  ∀ (cfg : Config) (i : Instr) (s : State), cfg.legal = true → cfg.memSize = 256 →
    cfg.dispatches i.mnemonic = true → s.Executing →
    (∀ k, k < (encode cfg i).length → s.byteAt (s.pc + BitVec.ofNat 8 k) = (encode cfg i).getD k 0) →
      tick cfg s = perform cfg i (s.setIr (opcodeOf cfg i)) ∧
      (i.wellFormed = true → (tick cfg s).pc.toNat = (s.pc.toNat + (encode cfg i).length) % 2 ^ cfg.pcWidth)

/-- R87: the numbers of the opcodes do not matter. Under two assignments that meet R87 and are otherwise one configuration,
an instruction does the same to everything but `ir`. -/
def Obligations.OpcodeNumbersDoNotMatter : Prop :=
  ∀ (cfg : Config) (o : Opc) (i : Instr) (s : State), cfg.opc.legal = true → o.legal = true →
    perform { cfg with opc := o } i (s.setIr (o.byte i.mnemonic)) =
      (perform cfg i (s.setIr (cfg.opc.byte i.mnemonic))).setIr (o.byte i.mnemonic)

/-! ## Reset and loading -/

/-- What reset leaves (10_state.md section 8), for every value of the OPEN parameters: the values the table states (SP_INIT
is the spec's decision D4, `fault = none` its decision D10). -/
def Obligations.ResetLeavesStatedValues : Prop :=
  (∀ s : State, s.ResetState →
    s.pc = 0 ∧ s.run = .running ∧ s.reg 7 = 0xF4 ∧ s.fault = none ∧ s.out = []) ∧
  State.ResetState State.reset

/-- The invariant holds in every state reset may leave. -/
def Obligations.InvariantHoldsAtReset : Prop := ∀ s : State, s.ResetState → s.Inv

/-- R51: a read of the port answers the byte at the address and a write stores one byte and leaves every other alone; at
MEM_SIZE = 256 (D5) neither is ever refused. -/
def Obligations.MemoryPortReadsLatestWrite : Prop :=
  ∀ (s : State) (a : Addr) (v : Byte), s.mem.wf = true →
    memRead Config.hw a s = .ok (s.mem.read a.toNat) ∧
    ∃ t, memWrite Config.hw a v s = .ok t ∧ t.mem.wf = true ∧
      t.mem.read a.toNat = v ∧ MemSameExcept a s t ∧
      RegsSameExcept [] s t ∧ ControlSame s t ∧ t.pc = s.pc

/-- R67: `poke`, used as it may be (no halt and no fault before it), writes its one byte and changes nothing else. -/
def Obligations.PokeWritesOneByte : Prop :=
  ∀ (s : State) (a : Addr) (v : Byte), s.mem.wf = true → s.Executing →
    (s.poke Config.hw a v).mem.read a.toNat = v ∧ MemSameExcept a s (s.poke Config.hw a v) ∧
    RegsSameExcept [] s (s.poke Config.hw a v) ∧ ControlSame s (s.poke Config.hw a v) ∧
    (s.poke Config.hw a v).pc = s.pc

/-- Loading (20_memory.md section 5, 70_reset_and_hazards.md section 2): after it the program's bytes stand at addresses 0 to
L - 1, every other byte reads as before, and nothing but memory has changed. -/
def Obligations.LoadPutsProgramAtZero : Prop :=
  ∀ (s : State) (prog : List Byte), s.mem.wf = true → s.Executing → prog.length ≤ 256 →
    (s.load Config.hw prog).Holds prog ∧ (s.load Config.hw prog).mem.wf = true ∧
    (∀ k, prog.length ≤ k → (s.load Config.hw prog).mem.read k = s.mem.read k) ∧
    RegsSameExcept [] s (s.load Config.hw prog) ∧ ControlSame s (s.load Config.hw prog) ∧
    (s.load Config.hw prog).pc = s.pc

/-- R242, R59: from every reset state, the first tick after loading takes its opcode from the program's first byte. -/
def Obligations.FirstTickRunsFirstByte : Prop :=
  ∀ (s : State) (op : Byte) (rest : List Byte), s.ResetState → rest.length ≤ 255 →
    ∃ t, step (s.load Config.hw (op :: rest)) = .next t ∧ t.ir = op

/-- 45_stack.md R190 (SP_INIT is the spec's decision D4): from every reset state the first item pushed stands at mem[0xF3]. -/
def Obligations.FirstPushLandsBelowSpInit : Prop :=
  ∀ (s : State) (a : Byte) (r : RegIndex), s.ResetState → a.toNat = r.val → r ≠ 7 →
    ∃ t, exec (.push a) s = .next t ∧ t.reg 7 = 0xF3 ∧ t.mem.read 0xF3 = s.reg r

/-! ## The instructions: result, frame, completion, and the operand bytes they fault on -/

/-- R141: NOP completes in every state and changes nothing but the PC. -/
def Obligations.NopOnlyAdvances : Prop :=
  ∀ s : State, ∃ t, exec .nop s = .next t ∧ AdvancesBy Config.hw.opc.nop 1 s t ∧
    RegsSameExcept [] s t ∧ ControlSame s t ∧ MemSame s t

/-- R140: HLT completes in every state, leaves the machine HALTED with the PC past it, and changes nothing else; after it no
tick does anything. -/
def Obligations.HltHaltsPastItself : Prop :=
  ∀ s : State, ∃ t, exec .hlt s = .next t ∧ t.run = .halted ∧ AdvancesBy Config.hw.opc.hlt 1 s t ∧
    RegsSameExcept [] s t ∧ t.ir = s.ir ∧ t.fault = s.fault ∧ t.out = s.out ∧ MemSame s t ∧ step t = .next t

/-- R150: LDI loads the immediate as it stands, whatever it is, into the register operand A names, the stack pointer
included; operand A above 7 takes RegIndexFault with nothing changed. -/
def Obligations.LdiLoadsImmediate : Prop :=
  ∀ (a v : Byte) (s : State),
    (∀ r : RegIndex, a.toNat = r.val → ∃ t, exec (.ldi a v) s = .next t ∧
      t.reg r = v ∧ AdvancesBy Config.hw.opc.ldi 3 s t ∧ RegsSameExcept [r] s t ∧ ControlSame s t ∧ MemSame s t) ∧
    (8 ≤ a.toNat → ∃ t, exec (.ldi a v) s = .next t ∧ FaultsOn a s t)

/-- R160: PRN appends the register's byte to the output and changes no register or memory byte; operand A above 7 takes
RegIndexFault with nothing emitted. -/
def Obligations.PrnEmitsRegister : Prop :=
  ∀ (a : Byte) (s : State),
    (∀ r : RegIndex, a.toNat = r.val → ∃ t, exec (.prn a) s = .next t ∧
      t.out = s.out ++ [s.reg r] ∧ AdvancesBy Config.hw.opc.prn 2 s t ∧
      RegsSameExcept [] s t ∧ t.ir = s.ir ∧ t.run = s.run ∧ t.fault = s.fault ∧ MemSame s t) ∧
    (8 ≤ a.toNat → ∃ t, exec (.prn a) s = .next t ∧ FaultsOn a s t)

/-- 44_alu.md sections 1 and 2: ADD writes the sum modulo 256 into its first operand's register (the same register as source
and destination included), and nothing else; a register operand above 7 takes RegIndexFault. That operand A is reported when
both are bad is the spec's decision D11 (60_exceptions.md section 1, log entry 13). -/
def Obligations.AddWritesSumModulo256 : Prop :=
  ∀ (a b : Byte) (s : State),
    (∀ ra rb : RegIndex, a.toNat = ra.val → b.toNat = rb.val → ∃ t, exec (.add a b) s = .next t ∧
      (t.reg ra).toNat = ((s.reg ra).toNat + (s.reg rb).toNat) % 256 ∧
      AdvancesBy Config.hw.opc.add 3 s t ∧ RegsSameExcept [ra] s t ∧ ControlSame s t ∧ MemSame s t) ∧
    (8 ≤ a.toNat → ∃ t, exec (.add a b) s = .next t ∧ FaultsOn a s t) ∧
    (a.toNat < 8 → 8 ≤ b.toNat → ∃ t, exec (.add a b) s = .next t ∧ FaultsOn b s t)

/-- 44_alu.md sections 1 and 2: MUL writes the low eight bits of the product, and nothing else; a register operand above 7 takes
RegIndexFault. That operand A is reported when both are bad is the spec's decision D11 (60_exceptions.md section 1, log
entry 13). -/
def Obligations.MulWritesProductModulo256 : Prop :=
  ∀ (a b : Byte) (s : State),
    (∀ ra rb : RegIndex, a.toNat = ra.val → b.toNat = rb.val → ∃ t, exec (.mul a b) s = .next t ∧
      (t.reg ra).toNat = ((s.reg ra).toNat * (s.reg rb).toNat) % 256 ∧
      AdvancesBy Config.hw.opc.mul 3 s t ∧ RegsSameExcept [ra] s t ∧ ControlSame s t ∧ MemSame s t) ∧
    (8 ≤ a.toNat → ∃ t, exec (.mul a b) s = .next t ∧ FaultsOn a s t) ∧
    (a.toNat < 8 → 8 ≤ b.toNat → ∃ t, exec (.mul a b) s = .next t ∧ FaultsOn b s t)

/-- 44_alu.md sections 1 and 2: AND writes the bitwise AND, bit by bit and never larger than either operand, and nothing else; a
register operand above 7 takes RegIndexFault. That operand A is reported when both are bad is the spec's decision D11
(60_exceptions.md section 1, log entry 13). -/
def Obligations.AndWritesBitwiseAnd : Prop :=
  ∀ (a b : Byte) (s : State),
    (∀ ra rb : RegIndex, a.toNat = ra.val → b.toNat = rb.val → ∃ t, exec (.and a b) s = .next t ∧
      (∀ k, k < 8 → (t.reg ra).getLsbD k = ((s.reg ra).getLsbD k && (s.reg rb).getLsbD k)) ∧
      (t.reg ra).toNat ≤ (s.reg ra).toNat ∧ (t.reg ra).toNat ≤ (s.reg rb).toNat ∧
      AdvancesBy Config.hw.opc.and 3 s t ∧ RegsSameExcept [ra] s t ∧ ControlSame s t ∧ MemSame s t) ∧
    (8 ≤ a.toNat → ∃ t, exec (.and a b) s = .next t ∧ FaultsOn a s t) ∧
    (a.toNat < 8 → 8 ≤ b.toNat → ∃ t, exec (.and a b) s = .next t ∧ FaultsOn b s t)

/-- 44_alu.md R175 and R170: INC adds one modulo 256, so 255 goes to 0, and changes nothing else; operand A above 7 takes
RegIndexFault. That INC is an instruction of one operand is the spec's decision D2. -/
def Obligations.IncAddsOneModulo256 : Prop :=
  ∀ (a : Byte) (s : State),
    (∀ r : RegIndex, a.toNat = r.val → ∃ t, exec (.inc a) s = .next t ∧
      (t.reg r).toNat = ((s.reg r).toNat + 1) % 256 ∧
      AdvancesBy Config.hw.opc.inc 2 s t ∧ RegsSameExcept [r] s t ∧ ControlSame s t ∧ MemSame s t) ∧
    (8 ≤ a.toNat → ∃ t, exec (.inc a) s = .next t ∧ FaultsOn a s t)

/-- 44_alu.md R176 and R170: DEC subtracts one modulo 256, so 0 goes to 255, and changes nothing else; operand A above 7
takes RegIndexFault. That DEC is an instruction of one operand is the spec's decision D2. -/
def Obligations.DecSubtractsOneModulo256 : Prop :=
  ∀ (a : Byte) (s : State),
    (∀ r : RegIndex, a.toNat = r.val → ∃ t, exec (.dec a) s = .next t ∧
      (t.reg r).toNat = ((s.reg r).toNat + 255) % 256 ∧
      AdvancesBy Config.hw.opc.dec 2 s t ∧ RegsSameExcept [r] s t ∧ ControlSame s t ∧ MemSame s t) ∧
    (8 ≤ a.toNat → ∃ t, exec (.dec a) s = .next t ∧ FaultsOn a s t)

/-- 45_stack.md R191: PUSH decrements the stack pointer modulo 256, then writes the register at the new stack pointer; the
register is read after the decrement, so PUSH 7 stores the decremented stack pointer (the spec's decision D15). Every other
register and every other byte is unchanged; operand A above 7 takes RegIndexFault before any of it. -/
def Obligations.PushDecrementsThenWrites : Prop :=
  ∀ (a : Byte) (s : State), s.mem.wf = true →
    (∀ r : RegIndex, a.toNat = r.val → ∃ t, exec (.push a) s = .next t ∧
      (t.reg 7).toNat = ((s.reg 7).toNat + 255) % 256 ∧ t.reg 7 = pushAddr Config.hw s ∧
      t.mem.read (pushAddr Config.hw s).toNat = (if r = 7 then t.reg 7 else s.reg r) ∧
      MemSameExcept (pushAddr Config.hw s) s t ∧
      AdvancesBy Config.hw.opc.push 2 s t ∧ RegsSameExcept [7] s t ∧ ControlSame s t) ∧
    (8 ≤ a.toNat → ∃ t, exec (.push a) s = .next t ∧ FaultsOn a s t)

/-- 45_stack.md R192: POP reads the byte at the stack pointer into the register, then increments the stack pointer modulo
256; the stack pointer is read after the register is written, so POP 7 leaves the byte read plus one (the spec's decision
D15). Memory and every other register are unchanged; operand A above 7 takes RegIndexFault before any of it. -/
def Obligations.PopReadsThenIncrements : Prop :=
  ∀ (a : Byte) (s : State),
    (∀ r : RegIndex, a.toNat = r.val → ∃ t, exec (.pop a) s = .next t ∧
      (r ≠ 7 → t.reg r = s.mem.read (popAddr Config.hw s).toNat ∧
        (t.reg 7).toNat = ((s.reg 7).toNat + 1) % 256) ∧
      (r = 7 → (t.reg 7).toNat = ((s.mem.read (popAddr Config.hw s).toNat).toNat + 1) % 256) ∧
      AdvancesBy Config.hw.opc.pop 2 s t ∧ RegsSameExcept [r, 7] s t ∧ ControlSame s t ∧ MemSame s t) ∧
    (8 ≤ a.toNat → ∃ t, exec (.pop a) s = .next t ∧ FaultsOn a s t)

/-! ## Laws of several instructions -/

/-- 44_alu.md R177: INC then DEC, and DEC then INC, on the same register restore every register, for all byte values. -/
def Obligations.IncAndDecRoundTrip : Prop :=
  ∀ (a : Byte) (s : State), a.toNat < 8 →
    (∃ t u, exec (.inc a) s = .next t ∧ exec (.dec a) t = .next u ∧ RegsSameExcept [] s u ∧ MemSame s u) ∧
    (∃ t u, exec (.dec a) s = .next t ∧ exec (.inc a) t = .next u ∧ RegsSameExcept [] s u ∧ MemSame s u)

/-- 45_stack.md R194: PUSH a then POP c, for registers other than 7, copies the one to the other and restores the stack
pointer; the pushed byte stays below it. With c = a every register is restored. -/
def Obligations.PushThenPopCopies : Prop :=
  ∀ (a c : Byte) (ra rc : RegIndex) (s : State), s.mem.wf = true →
    a.toNat = ra.val → c.toNat = rc.val → ra ≠ 7 → rc ≠ 7 →
    ∃ t u, exec (.push a) s = .next t ∧ exec (.pop c) t = .next u ∧
      u.reg rc = s.reg ra ∧ RegsSameExcept [rc] s u ∧
      u.mem.read (s.reg 7 - 1).toNat = s.reg ra ∧ MemSameExcept (s.reg 7 - 1) s u

/-- 45_stack.md R195: items come off in the reverse of the order they went on. -/
def Obligations.StackReversesOrder : Prop :=
  ∀ (a b c d : Byte) (ra rb rc rd : RegIndex) (s : State), s.mem.wf = true →
    a.toNat = ra.val → b.toNat = rb.val → c.toNat = rc.val → d.toNat = rd.val →
    ra ≠ 7 → rb ≠ 7 → rc ≠ 7 → rd ≠ 7 → rc ≠ rd →
    ∃ t u v w, exec (.push a) s = .next t ∧ exec (.push b) t = .next u ∧
      exec (.pop c) u = .next v ∧ exec (.pop d) v = .next w ∧
      w.reg rc = s.reg rb ∧ w.reg rd = s.reg ra ∧ w.reg 7 = s.reg 7

/-! ## The tick -/

/-- A step at an executing state whose bytes decode runs exactly that instruction's meaning, on the state with `ir` holding
the opcode; the PC advance is part of the meaning, so nothing stands around it. -/
def Obligations.StepRunsDecodedInstruction : Prop :=
  ∀ (s : State) (i : Instr), s.Executing →
    decodeBytes Config.hw (s.byteAt s.pc) (s.byteAt (s.pc + 1)) (s.byteAt (s.pc + 2)) = .ok i →
    step s = exec i { s with ir := s.byteAt s.pc }

/-- R114: a byte with no dispatch-table entry halts the machine, whatever bytes follow it: `ir` is the byte, the PC does not
advance, nothing else changes, no fault is latched. For every configuration with the whole of memory. -/
def Obligations.UnassignedOpcodeHaltsInPlace : Prop :=
  ∀ (cfg : Config) (s : State), cfg.memSize = 256 → s.Executing → lookup cfg (s.byteAt s.pc) = none →
    (tick cfg s).run = .halted ∧ (tick cfg s).ir = s.byteAt s.pc ∧ (tick cfg s).pc = s.pc ∧
    (tick cfg s).fault = none ∧ (tick cfg s).out = s.out ∧
    RegsSameExcept [] s (tick cfg s) ∧ MemSame s (tick cfg s) ∧
    (cfg = Config.hw → step s = .next (tick cfg s))

/-- 60_exceptions.md section 3 (R217): the miss is decided before any operand is looked at, operand A is reported before
operand B, and a byte the handler does not use is not checked: the fault a step latches, in every case. -/
def Obligations.FaultPriorityInAStep : Prop :=
  ∀ (s : State) (op opA opB : Byte), s.Executing → s.Fetches op opA opB →
    ∃ t, step s = .next t ∧ t.fault =
      match lookup Config.hw op with
      | none | some .nop | some .hlt => none
      | some .add | some .mul | some .and =>
        if 8 ≤ opA.toNat then some (.regIndex opA) else if 8 ≤ opB.toNat then some (.regIndex opB) else none
      | some .prn | some .pop | some .push | some .inc | some .dec | some .ldi =>
        if 8 ≤ opA.toNat then some (.regIndex opA) else none

/-- 60_exceptions.md sections 1 and 4 (R212, R218; the spec's decisions D10, D11): a fault is precise. A step that latches one
has changed `ir`, which holds the offending opcode, and the latch, and nothing else: the PC is the instruction's address. -/
def Obligations.FaultIsPrecise : Prop :=
  ∀ s t : State, s.Executing → step s = .next t → t.fault ≠ none →
    ∃ i : Byte, 8 ≤ i.toNat ∧ t = { s with ir := s.byteAt s.pc, fault := some (.regIndex i) }

/-- 40_cycle_and_dispatch.md section 1: every tick that starts writes `ir` with the byte at the PC, whether it ends in a next
instruction, a halt or a fault. That every tick has a next state, a faulting one included, is the model's choice (log entry 5,
DESIGN CHOICE): 00_scope.md section 5 counts a fault as an outcome of its own, and the model answers it with the state it
leaves. -/
def Obligations.EveryStartedTickWritesIr : Prop :=
  ∀ s : State, s.Executing → ∃ t, step s = .next t ∧ t.ir = s.byteAt s.pc

/-- 10_state.md section 7 and 40_cycle_and_dispatch.md section 3 (the spec's decision D12): a halted or faulted machine's tick
does nothing, and no number of ticks leaves either. -/
def Obligations.StoppedMachineFreezes : Prop :=
  ∀ s : State, s.run = .halted ∨ s.fault ≠ none →
    step s = .next s ∧ ∀ k, drive Config.hw k s = s

/-- 10_state.md section 3 (R27; the wrap is the spec's decision D6): the PC changes in one way only. A step leaves it where it
is on a stopped machine, on a miss and on a fault, and otherwise moves it forward by the declared length. -/
def Obligations.PcMovesOnlyByDeclaredLength : Prop :=
  ∀ s t : State, step s = .next t →
    t.pc = if s.run = .running ∧ s.fault = none ∧ lookup Config.hw (s.byteAt s.pc) ≠ none ∧ t.fault = none
      then s.pc + operandCount (s.byteAt s.pc) + 1 else s.pc

/-- 10_state.md section 5 (R30) and 40_cycle_and_dispatch.md R124: RUNNING becomes HALTED by HLT or by a miss and in no other
way, told apart by `ir` and the PC; HALTED never becomes RUNNING. -/
def Obligations.HaltsInExactlyTwoWays : Prop :=
  ∀ s t : State, step s = .next t →
    (s.run = .halted → t.run = .halted) ∧
    (s.run = .running → (t.run = .halted ↔
      s.fault = none ∧ (s.byteAt s.pc = Config.hw.opc.hlt ∨ lookup Config.hw (s.byteAt s.pc) = none))) ∧
    (s.run = .running → t.run = .halted →
      (t.EndedByHlt Config.hw ∧ t.pc = s.pc + 1) ∨ (t.EndedImplicitly Config.hw ∧ t.pc = s.pc))

/-- 20_memory.md section 1 (R53): no step changes memory but a PUSH's, and that one changes at most the byte at the
decremented stack pointer. -/
def Obligations.MemoryChangesOnlyByPush : Prop :=
  ∀ s t : State, step s = .next t →
    MemSameExcept (pushAddr Config.hw s) s t ∧
    (s.byteAt s.pc ≠ Config.hw.opc.push → MemSame s t)

/-- R162: output is exactly what the PRN instructions emit, in order: a step appends the register's byte if it executes a PRN
of a register, and nothing otherwise. -/
def Obligations.OutputGrowsOnlyByPrn : Prop :=
  ∀ s t : State, step s = .next t →
    (∀ r : RegIndex, s.Executing → s.byteAt s.pc = Config.hw.opc.prn → (s.byteAt (s.pc + 1)).toNat = r.val →
      t.out = s.out ++ [s.reg r]) ∧
    (¬ (s.Executing ∧ s.byteAt s.pc = Config.hw.opc.prn ∧ (s.byteAt (s.pc + 1)).toNat < 8) → t.out = s.out)

/-- 10_state.md R24, the "writes" column, and R28: an instruction changes no register outside its column, and no instruction
writes `ir`. -/
def Obligations.RegistersWrittenFollowTable : Prop :=
  ∀ (i : Instr) (s t : State), exec i s = .next t →
    RegsSameExcept (i.writes Config.hw) s t ∧ t.ir = s.ir

/-- 10_state.md R24, the "reads" column: the value of a register outside an instruction's column has no influence: changed
beforehand, it is changed the same way afterwards, or overwritten. -/
def Obligations.RegistersReadFollowTable : Prop :=
  ∀ (i : Instr) (s t : State) (r : RegIndex) (v : Byte), exec i s = .next t → r ∉ i.reads Config.hw →
    (r ∉ i.writes Config.hw → exec i (s.setReg r v) = .next (t.setReg r v)) ∧
    (r ∈ i.writes Config.hw → exec i (s.setReg r v) = .next t)

/-- 10_state.md R28: a program can observe the PC and IR in no way: changing either before an instruction changes nothing but
the PC and IR after it. -/
def Obligations.PcAndIrAreUnobservable : Prop :=
  ∀ (i : Instr) (s t : State) (p : Addr) (c : Byte), exec i s = .next t →
    ∃ t', exec i { s with pc := p, ir := c } = .next t' ∧ { t' with pc := t.pc, ir := t.ir } = t

/-- R113: a byte that is fetched and not used has no influence on any state: storing any byte at it before the step is
storing it after. The bytes at pc + 1 and pc + 2 are not used by a miss, HLT and NOP, the byte at pc + 2 not by an
instruction of one operand (for PUSH and POP: where the stack access is elsewhere). -/
def Obligations.UnusedOperandBytesHaveNoInfluence : Prop :=
  ∀ (s t : State) (k : Addr) (v : Byte), s.mem.wf = true → step s = .next t →
    (k = s.pc + 1 ∧ (∀ m, lookup Config.hw (s.byteAt s.pc) = some m → m.arity = 0)) ∨
    (k = s.pc + 2 ∧ (∀ m, lookup Config.hw (s.byteAt s.pc) = some m → m.arity ≤ 1)) →
    (s.byteAt s.pc = Config.hw.opc.push → k ≠ pushAddr Config.hw s) →
    (s.byteAt s.pc = Config.hw.opc.pop → k ≠ popAddr Config.hw s) →
    step (s.store k v) = .next (t.store k v)

/-- 20_memory.md section 4 and 45_stack.md section 2: a PUSH's write is seen by the very next tick's fetches and by none of
its own: the register pushed is the one its operand byte named before the write, and the next tick reads its opcode and
operand bytes from memory as the PUSH left it. It speaks of the next tick only, not of all later ones. The value PUSH 7
stores, the decremented stack pointer, is the spec's decision D15 (log entry 13). -/
def Obligations.NextTickFetchesWhatPushWrote : Prop :=
  ∀ (s : State) (r : RegIndex), s.mem.wf = true → s.Executing → s.byteAt s.pc = Config.hw.opc.push →
    (s.byteAt (s.pc + 1)).toNat = r.val →
    ∃ t u, step s = .next t ∧ step t = .next u ∧ t.pc = s.pc + 2 ∧ t.Executing ∧
      (∀ b : Addr, t.byteAt b =
        if b = s.reg 7 - 1 then (if r = 7 then s.reg 7 - 1 else s.reg r) else s.byteAt b) ∧
      u.ir = t.byteAt t.pc ∧
      (∀ i, decodeBytes Config.hw (t.byteAt t.pc) (t.byteAt (t.pc + 1)) (t.byteAt (t.pc + 2)) = .ok i →
        exec i { t with ir := t.byteAt t.pc } = .next u)

/-- 70_reset_and_hazards.md R246: while the program ends at or below the place the next push writes, no step changes it. -/
def Obligations.StepKeepsProgramBelowStack : Prop :=
  ∀ (s t : State) (prog : List Byte), s.Holds prog → prog.length ≤ (pushAddr Config.hw s).toNat →
    step s = .next t → t.Holds prog

/-- The invariant is kept by every step, from every state that has it: memory stays canonical, the latch never holds
anything but a RegIndexFault of a byte above 7, and a faulted machine is never HALTED (10_state.md R31; D10). -/
def Obligations.StepKeepsInvariant : Prop :=
  ∀ s t : State, s.Inv → step s = .next t → t.Inv

/-! ## Parameters, driving, output -/

/-- 60_exceptions.md R213 and 20_memory.md R52 (the spec's decision D26), for a memory of any size: the first access of the
tick at or above MEM_SIZE faults, in order, with what came before it standing, and the PC is not advanced. It ranges over every
ADDR_WIDTH too: for widths other than 8, that the operand fetches wrap and that the PC and the stack pointer are not masked is
the model's choice (log entry 8, DESIGN CHOICE). -/
def Obligations.SmallMemoryRangeFaults : Prop :=
  ∀ (cfg : Config) (s : State), s.Executing →
    (cfg.memSize ≤ s.pc.toNat → tick cfg s = { s with fault := some (.memRange s.pc) }) ∧
    (s.pc.toNat < cfg.memSize → cfg.memSize ≤ (fetchAddr cfg s.pc 1).toNat →
      tick cfg s = { s with ir := s.byteAt s.pc, fault := some (.memRange (fetchAddr cfg s.pc 1)) }) ∧
    (s.pc.toNat < cfg.memSize → (fetchAddr cfg s.pc 1).toNat < cfg.memSize →
      cfg.memSize ≤ (fetchAddr cfg s.pc 2).toNat →
      tick cfg s = { s with ir := s.byteAt s.pc, fault := some (.memRange (fetchAddr cfg s.pc 2)) }) ∧
    (s.pc.toNat < cfg.memSize → (fetchAddr cfg s.pc 1).toNat < cfg.memSize →
      (fetchAddr cfg s.pc 2).toNat < cfg.memSize → (s.byteAt (fetchAddr cfg s.pc 1)).toNat < 8 →
      (lookup cfg (s.byteAt s.pc) = some .push → cfg.memSize ≤ (pushAddr cfg s).toNat →
        tick cfg s = { s.setReg cfg.spReg (pushAddr cfg s) with
          ir := s.byteAt s.pc, fault := some (.memRange (pushAddr cfg s)) }) ∧
      (lookup cfg (s.byteAt s.pc) = some .pop → cfg.memSize ≤ (popAddr cfg s).toNat →
        tick cfg s = { s with ir := s.byteAt s.pc, fault := some (.memRange (popAddr cfg s)) }))

/-- 40_cycle_and_dispatch.md R117 (the spec's decision D2): with INCDEC_DISPATCHED = false the bytes of INC and DEC are
unassigned opcodes, and every other mnemonic keeps its byte. -/
def Obligations.IncDecSwitchRemovesTwoEntries : Prop :=
  ∀ cfg : Config, cfg.legal = true → cfg.incDecDispatched = false →
    lookup cfg cfg.opc.inc = none ∧ lookup cfg cfg.opc.dec = none ∧
    ∀ m, m ≠ .inc → m ≠ .dec → lookup cfg (cfg.opc.byte m) = some m

/-- 40_cycle_and_dispatch.md R121: driving is a sequence of ticks, and how the host groups its requests does not matter; the
loop stops at a halt or a fault. -/
def Obligations.DrivingComposes : Prop :=
  ∀ (cfg : Config) (j k : Nat) (s : State),
    drive cfg (j + k) s = drive cfg k (drive cfg j s) ∧
    (drive cfg 1 s = tick cfg s) ∧
    (s.run = .halted ∨ s.fault ≠ none → drive cfg k s = s)

/-- 40_cycle_and_dispatch.md R125: a program is a straight line. Within 256 ticks every run stops, at a halt or a fault, or its
PC wraps past the top of memory (the wrap is the spec's decision D6). -/
def Obligations.RunStopsOrWrapsWithin256Ticks : Prop :=
  ∀ s : State, ∃ k, k ≤ 256 ∧
    ((drive Config.hw k s).stopped = true ∨
      ∃ j, j < k ∧ (drive Config.hw (j + 1) s).pc.toNat < (drive Config.hw j s).pc.toNat)

/-- 43_prn.md R161 (numeral format and line feed: the spec's decision D14): the text of a value is its decimal numeral,
without leading zeros, and a line feed; the text of a run is its lines in order and determines what was emitted. -/
def Obligations.OutputTextIsDecimalLines : Prop :=
  (∀ v : Byte, ∃ ds : List Char, outputLine v = ds ++ ['\n'] ∧
    (∀ c ∈ ds, '0'.toNat ≤ c.toNat ∧ c.toNat ≤ '9'.toNat) ∧
    ds.foldl (fun n c => 10 * n + (c.toNat - '0'.toNat)) 0 = v.toNat ∧
    (ds.head? = some '0' → v = 0) ∧ 1 ≤ ds.length ∧ (v = 0 → ds = ['0'])) ∧
  (∀ xs ys : List Byte, outputText (xs ++ ys) = outputText xs ++ outputText ys) ∧
  (∀ xs ys : List Byte, outputText xs = outputText ys → xs = ys)

/-! ## The widths -/

/-- 00_scope.md section 4 and 20_memory.md section 5 (the spec's decisions D5, D7; widths other than 8: log entry 8): for every
ADDR_WIDTH, a tick takes its opcode from the PC and its two operand bytes from the next two addresses modulo 2^ADDR_WIDTH; where
memory has those three addresses, the tick runs what the three bytes decode to. -/
def Obligations.OperandFetchesWrapAtAddrWidth : Prop :=
  ∀ (cfg : Config) (s : State) (a b : Addr) (i : Instr), cfg.legal = true → s.Executing →
    a.toNat = (s.pc.toNat + 1) % 2 ^ cfg.addrWidth → b.toNat = (s.pc.toNat + 2) % 2 ^ cfg.addrWidth →
    s.pc.toNat < cfg.memSize → a.toNat < cfg.memSize → b.toNat < cfg.memSize →
    decodeBytes cfg (s.byteAt s.pc) (s.byteAt a) (s.byteAt b) = .ok i →
    tick cfg s = perform cfg i { s with ir := s.byteAt s.pc }

/-- 00_scope.md section 4, 10_state.md section 3 and 40_cycle_and_dispatch.md section 1 (the spec's decision D6; widths other
than 8: log entry 8): for every PC_WIDTH, a tick that does not fault and finds a handler moves the PC on by the declared length
modulo 2^PC_WIDTH, and no tick takes the PC out of that width. -/
def Obligations.PcWrapsAtPcWidth : Prop :=
  ∀ (cfg : Config) (s : State), cfg.legal = true →
    (s.Executing → lookup cfg (s.byteAt s.pc) ≠ none → (tick cfg s).fault = none →
      (tick cfg s).pc.toNat = (s.pc.toNat + (operandCount (s.byteAt s.pc)).toNat + 1) % 2 ^ cfg.pcWidth) ∧
    (s.pc.toNat < 2 ^ cfg.pcWidth → (tick cfg s).pc.toNat < 2 ^ cfg.pcWidth)

/-! ## The host -/

/-- 20_memory.md sections 1 and 5 (the spec's decision D26; that a poke's fault is recorded in the latch: log entry 9, DEDUCED),
for a memory of any size: a poke is one memory write. At or above MEM_SIZE it is a MemRangeFault and nothing is written; on a
halted or faulted machine, which is frozen (10_state.md section 7), it does nothing. -/
def Obligations.PokeIsOneMemoryWrite : Prop :=
  ∀ (cfg : Config) (s : State) (a : Addr) (v : Byte),
    (s.Executing → a.toNat < cfg.memSize → memWrite cfg a v s = .ok (s.poke cfg a v)) ∧
    (s.Executing → cfg.memSize ≤ a.toNat → s.poke cfg a v = { s with fault := some (.memRange a) }) ∧
    (s.run = .halted ∨ s.fault ≠ none → s.poke cfg a v = s)

/-- 60_exceptions.md section 6 and 70_reset_and_hazards.md section 2 (the spec's decision D20; a tick as two events: log entry 11,
DESIGN CHOICE): a host session in which every event has a move is a load and then a drive. Every poke comes before the first
tick, and the state reached is the poked state driven for as many ticks as complete. -/
def Obligations.SessionIsLoadThenDrive : Prop :=
  ∀ (cfg : Config) (es : List HostEvent) (s t : State) (p : HostPhase), session cfg .loading s es = some (p, t) →
    PokesFirst es ∧ t = drive cfg (ticksOf es) (s.pokeAll cfg (pokesOf es))

/-- 60_exceptions.md section 6 (the spec's decision D20): whatever the host does that has a move, on this hardware it keeps the
invariant. -/
def Obligations.SessionKeepsInvariant : Prop :=
  ∀ (es : List HostEvent) (s t : State) (p : HostPhase), s.Inv → session Config.hw .loading s es = some (p, t) → t.Inv

/-- 70_reset_and_hazards.md section 2 (the spec's decision D20 for the quiet host; a tick as two events: log entry 11, DESIGN
CHOICE): under the premises of a run, a session in which one tick completes has reached the state that one tick of the poked
reset state leaves, and that tick has fetched the first byte of the program into `ir`. -/
def Obligations.RunStartsAtFirstProgramByte : Prop :=
  ∀ (cfg : Config) (op : Byte) (rest : List Byte) (es : List HostEvent) (s t : State) (p : HostPhase),
    RunPremises cfg (op :: rest) es s → ticksOf es = 1 → session cfg .loading s es = some (p, t) →
      t = tick cfg (s.pokeAll cfg (pokesOf es)) ∧ t.ir = op
end

