-- ==== Sys2Proof/Laws/Decode.lean ====
section
/-! SUPPORT. The laws of the decoder: what a lookup answers, what the constraints of 30_encoding.md R87 give, and that this
hardware's configuration meets them. -/

namespace Sys2Proof

theorem Mnemonic.mem_all (m : Mnemonic) : m ∈ Mnemonic.all := by cases m <;> decide

/-- A hit names a dispatched mnemonic with that very byte (R94). -/
theorem lookup_some {cfg : Config} {op : Byte} {m : Mnemonic} (h : lookup cfg op = some m) :
    cfg.dispatches m = true ∧ cfg.opc.byte m = op := by
  have := List.find?_some h
  simpa using this

/-- A miss means no dispatched mnemonic has the byte. -/
theorem lookup_none {cfg : Config} {op : Byte} :
    lookup cfg op = none ↔ ∀ m, cfg.dispatches m = true → cfg.opc.byte m ≠ op := by
  simp only [lookup, List.find?_eq_none]
  constructor
  · intro h m hd hb
    exact h m (Mnemonic.mem_all m) (by simp [hd, hb])
  · intro h m _ hm
    simp only [Bool.and_eq_true, beq_iff_eq] at hm
    exact h m hm.1 hm.2

/-- Constraint 1 of R87. -/
theorem Opc.byte_injective {o : Opc} (h : o.legal = true) {m k : Mnemonic} (hb : o.byte m = o.byte k) : m = k := by
  simp only [Opc.legal, Opc.distinct, Bool.and_eq_true, List.all_eq_true] at h
  have := h.1.1 m (Mnemonic.mem_all m) k (Mnemonic.mem_all k)
  simpa [hb] using this

/-- Constraint 2 of R87. -/
theorem Opc.count_eq_arity {o : Opc} (h : o.legal = true) (m : Mnemonic) :
    (operandCount (o.byte m)).toNat = m.arity := by
  simp only [Opc.legal, Opc.countsAgree, Bool.and_eq_true, List.all_eq_true] at h
  simpa using h.1.2 m (Mnemonic.mem_all m)

/-- Constraint 3 of R87. -/
theorem Opc.aluFlag_eq {o : Opc} (h : o.legal = true) (m : Mnemonic) : aluFlag (o.byte m) = m.isAlu := by
  simp only [Opc.legal, Opc.aluBitsAgree, Bool.and_eq_true, List.all_eq_true] at h
  simpa using h.2 m (Mnemonic.mem_all m)

theorem Config.legal_opc {cfg : Config} (h : cfg.legal = true) : cfg.opc.legal = true := by
  simp [Config.legal] at h; exact h.1

/-- What the widths of a legal configuration satisfy. -/
theorem Config.legal_widths {cfg : Config} (h : cfg.legal = true) :
    cfg.addrWidth ≤ 8 ∧ cfg.pcWidth ≤ 8 ∧ cfg.memSize ≤ 2 ^ cfg.addrWidth ∧ cfg.resetPc.toNat < 2 ^ cfg.pcWidth := by
  simpa [Config.legal, Config.widthsFit, and_assoc] using (Bool.and_eq_true_iff.1 h).2

theorem Config.legal_memSize {cfg : Config} (h : cfg.legal = true) : cfg.memSize ≤ 256 := by
  obtain ⟨ha, -, hm, -⟩ := Config.legal_widths h
  exact hm.trans (Nat.pow_le_pow_right (by decide) ha)

/-- A legal configuration with the whole of memory has the whole address width. -/
theorem Config.addrWidth_of_full {cfg : Config} (h : cfg.legal = true) (hm : 256 ≤ cfg.memSize) : cfg.addrWidth = 8 := by
  obtain ⟨ha, -, hw, -⟩ := Config.legal_widths h
  have : 2 ^ 8 ≤ 2 ^ cfg.addrWidth := hm.trans hw
  have := (Nat.pow_le_pow_iff_right (by decide)).1 this
  omega

/-- Under a legal assignment a dispatched mnemonic's byte is looked up to it. -/
theorem lookup_byte {cfg : Config} (h : cfg.opc.legal = true) {m : Mnemonic} (hd : cfg.dispatches m = true) :
    lookup cfg (cfg.opc.byte m) = some m := by
  cases hl : lookup cfg (cfg.opc.byte m) with
  | none => exact absurd rfl (lookup_none.1 hl m hd)
  | some k => rw [Opc.byte_injective h (lookup_some hl).2]

/-- This hardware's configuration is one the spec allows (R87, R88). -/
theorem Config.hw_legal : Config.hw.legal = true := by decide

@[simp] theorem Config.hw_addrWidth : Config.hw.addrWidth = 8 := rfl
@[simp] theorem Config.hw_pcWidth : Config.hw.pcWidth = 8 := rfl
@[simp] theorem Config.hw_memSize : Config.hw.memSize = 256 := rfl
@[simp] theorem Config.hw_spReg : Config.hw.spReg = 7 := rfl
@[simp] theorem Config.hw_dispatches (m : Mnemonic) : Config.hw.dispatches m = true := by cases m <;> rfl

/-- Handing both bytes to the handler of an instruction's mnemonic gives the instruction back. -/
theorem assemble_operands (i : Instr) :
    assemble i.mnemonic (i.operands.getD 0 0) (i.operands.getD 1 0) = i := by cases i <;> rfl

@[simp] theorem assemble_mnemonic (m : Mnemonic) (x y : Byte) : (assemble m x y).mnemonic = m := by cases m <;> rfl

/-- The operand bytes an instruction is made of: as many of the two as its arity. -/
theorem assemble_operands_eq (m : Mnemonic) (x y : Byte) : (assemble m x y).operands = [x, y].take m.arity := by
  cases m <;> rfl

@[simp] theorem Instr.operands_length (i : Instr) : i.operands.length = i.mnemonic.arity := by cases i <;> rfl

/-- A tick's decoding succeeds exactly on a hit. -/
theorem decodeBytes_ok {cfg : Config} {op x y : Byte} {i : Instr} :
    decodeBytes cfg op x y = .ok i ↔ ∃ m, lookup cfg op = some m ∧ assemble m x y = i := by
  cases h : lookup cfg op <;> simp [decodeBytes, h]

/-- A tick's decoding fails exactly on a miss. -/
theorem decodeBytes_error {cfg : Config} {op x y : Byte} {e : DecodeError} :
    decodeBytes cfg op x y = .error e ↔ lookup cfg op = none ∧ e = .unknownOpcode op := by
  cases h : lookup cfg op <;> simp [decodeBytes, h, eq_comm]

/-- The operand count is the number the two high bits form (R82). -/
theorem operandCount_toNat (b : Byte) : (operandCount b).toNat = b.toNat / 64 := by
  revert b; decide

end Sys2Proof
end

