-- ==== Sys2Proof/Laws/State.lean ====
section
/-! SUPPORT. One lemma per field per named update of the state, so that no later proof unfolds a record update. Registers are
read through `State.reg`. -/

namespace Sys2Proof.Machine

/-! ## `setReg` -/

@[simp] theorem State.setReg_pc (s : State) (r : RegIndex) (v : Byte) : (s.setReg r v).pc = s.pc := rfl
@[simp] theorem State.setReg_ir (s : State) (r : RegIndex) (v : Byte) : (s.setReg r v).ir = s.ir := rfl
@[simp] theorem State.setReg_run (s : State) (r : RegIndex) (v : Byte) : (s.setReg r v).run = s.run := rfl
@[simp] theorem State.setReg_fault (s : State) (r : RegIndex) (v : Byte) : (s.setReg r v).fault = s.fault := rfl
@[simp] theorem State.setReg_out (s : State) (r : RegIndex) (v : Byte) : (s.setReg r v).out = s.out := rfl
@[simp] theorem State.setReg_mem (s : State) (r : RegIndex) (v : Byte) : (s.setReg r v).mem = s.mem := rfl

theorem State.setReg_reg (s : State) (r : RegIndex) (v : Byte) (q : RegIndex) :
    (s.setReg r v).reg q = if q = r then v else s.reg q := by
  simp [State.setReg, State.reg, Vector.getElem_set, Fin.ext_iff, eq_comm]

@[simp] theorem State.setReg_reg_same (s : State) (r : RegIndex) (v : Byte) : (s.setReg r v).reg r = v := by
  simp [State.setReg_reg]

@[simp] theorem State.setReg_reg_other (s : State) {r q : RegIndex} (v : Byte) (h : q ≠ r) :
    (s.setReg r v).reg q = s.reg q := by
  simp [State.setReg_reg, h]
@[simp] theorem State.setReg_byteAt (s : State) (r : RegIndex) (v : Byte) (b : Addr) : (s.setReg r v).byteAt b = s.byteAt b := rfl

/-! ## `setPc` -/

@[simp] theorem State.setPc_pc (s : State) (t : Addr) : (s.setPc t).pc = t := rfl
@[simp] theorem State.setPc_ir (s : State) (t : Addr) : (s.setPc t).ir = s.ir := rfl
@[simp] theorem State.setPc_run (s : State) (t : Addr) : (s.setPc t).run = s.run := rfl
@[simp] theorem State.setPc_fault (s : State) (t : Addr) : (s.setPc t).fault = s.fault := rfl
@[simp] theorem State.setPc_out (s : State) (t : Addr) : (s.setPc t).out = s.out := rfl
@[simp] theorem State.setPc_mem (s : State) (t : Addr) : (s.setPc t).mem = s.mem := rfl
@[simp] theorem State.setPc_reg (s : State) (t : Addr) (q : RegIndex) : (s.setPc t).reg q = s.reg q := rfl
@[simp] theorem State.setPc_byteAt (s : State) (t : Addr) (b : Addr) : (s.setPc t).byteAt b = s.byteAt b := rfl

/-! ## `setIr` -/

@[simp] theorem State.setIr_pc (s : State) (v : Byte) : (s.setIr v).pc = s.pc := rfl
@[simp] theorem State.setIr_ir (s : State) (v : Byte) : (s.setIr v).ir = v := rfl
@[simp] theorem State.setIr_run (s : State) (v : Byte) : (s.setIr v).run = s.run := rfl
@[simp] theorem State.setIr_fault (s : State) (v : Byte) : (s.setIr v).fault = s.fault := rfl
@[simp] theorem State.setIr_out (s : State) (v : Byte) : (s.setIr v).out = s.out := rfl
@[simp] theorem State.setIr_mem (s : State) (v : Byte) : (s.setIr v).mem = s.mem := rfl
@[simp] theorem State.setIr_reg (s : State) (v : Byte) (q : RegIndex) : (s.setIr v).reg q = s.reg q := rfl
@[simp] theorem State.setIr_byteAt (s : State) (v : Byte) (b : Addr) : (s.setIr v).byteAt b = s.byteAt b := rfl

/-! ## `emit` -/

@[simp] theorem State.emit_pc (s : State) (v : Byte) : (s.emit v).pc = s.pc := rfl
@[simp] theorem State.emit_ir (s : State) (v : Byte) : (s.emit v).ir = s.ir := rfl
@[simp] theorem State.emit_run (s : State) (v : Byte) : (s.emit v).run = s.run := rfl
@[simp] theorem State.emit_fault (s : State) (v : Byte) : (s.emit v).fault = s.fault := rfl
@[simp] theorem State.emit_out (s : State) (v : Byte) : (s.emit v).out = s.out ++ [v] := rfl
@[simp] theorem State.emit_mem (s : State) (v : Byte) : (s.emit v).mem = s.mem := rfl
@[simp] theorem State.emit_reg (s : State) (v : Byte) (q : RegIndex) : (s.emit v).reg q = s.reg q := rfl
@[simp] theorem State.emit_byteAt (s : State) (v : Byte) (b : Addr) : (s.emit v).byteAt b = s.byteAt b := rfl

/-! ## `store` -/

@[simp] theorem State.store_pc (s : State) (a : Addr) (v : Byte) : (s.store a v).pc = s.pc := rfl
@[simp] theorem State.store_ir (s : State) (a : Addr) (v : Byte) : (s.store a v).ir = s.ir := rfl
@[simp] theorem State.store_run (s : State) (a : Addr) (v : Byte) : (s.store a v).run = s.run := rfl
@[simp] theorem State.store_fault (s : State) (a : Addr) (v : Byte) : (s.store a v).fault = s.fault := rfl
@[simp] theorem State.store_out (s : State) (a : Addr) (v : Byte) : (s.store a v).out = s.out := rfl
@[simp] theorem State.store_mem (s : State) (a : Addr) (v : Byte) : (s.store a v).mem = s.mem.write a.toNat v := rfl
@[simp] theorem State.store_reg (s : State) (a : Addr) (v : Byte) (q : RegIndex) : (s.store a v).reg q = s.reg q := rfl

/-! ## `halt` -/

@[simp] theorem State.halt_pc (s : State) : (s.halt).pc = s.pc := rfl
@[simp] theorem State.halt_ir (s : State) : (s.halt).ir = s.ir := rfl
@[simp] theorem State.halt_run (s : State) : (s.halt).run = .halted := rfl
@[simp] theorem State.halt_fault (s : State) : (s.halt).fault = s.fault := rfl
@[simp] theorem State.halt_out (s : State) : (s.halt).out = s.out := rfl
@[simp] theorem State.halt_mem (s : State) : (s.halt).mem = s.mem := rfl
@[simp] theorem State.halt_reg (s : State) (q : RegIndex) : (s.halt).reg q = s.reg q := rfl
@[simp] theorem State.halt_byteAt (s : State) (b : Addr) : (s.halt).byteAt b = s.byteAt b := rfl

/-! ## `raise` -/

@[simp] theorem State.raise_pc (s : State) (c : FaultCause) : (s.raise c).pc = s.pc := rfl
@[simp] theorem State.raise_ir (s : State) (c : FaultCause) : (s.raise c).ir = s.ir := rfl
@[simp] theorem State.raise_run (s : State) (c : FaultCause) : (s.raise c).run = s.run := rfl
@[simp] theorem State.raise_fault (s : State) (c : FaultCause) : (s.raise c).fault = some c := rfl
@[simp] theorem State.raise_out (s : State) (c : FaultCause) : (s.raise c).out = s.out := rfl
@[simp] theorem State.raise_mem (s : State) (c : FaultCause) : (s.raise c).mem = s.mem := rfl
@[simp] theorem State.raise_reg (s : State) (c : FaultCause) (q : RegIndex) : (s.raise c).reg q = s.reg q := rfl
@[simp] theorem State.raise_byteAt (s : State) (c : FaultCause) (b : Addr) : (s.raise c).byteAt b = s.byteAt b := rfl

/-! ## `advance` -/

@[simp] theorem State.advance_pc (cfg : Config) (s : State) :
    (s.advance cfg).pc = wrapTo cfg.pcWidth (s.pc + operandCount s.ir + 1) := rfl
@[simp] theorem State.advance_ir (cfg : Config) (s : State) : (s.advance cfg).ir = s.ir := rfl
@[simp] theorem State.advance_run (cfg : Config) (s : State) : (s.advance cfg).run = s.run := rfl
@[simp] theorem State.advance_fault (cfg : Config) (s : State) : (s.advance cfg).fault = s.fault := rfl
@[simp] theorem State.advance_out (cfg : Config) (s : State) : (s.advance cfg).out = s.out := rfl
@[simp] theorem State.advance_mem (cfg : Config) (s : State) : (s.advance cfg).mem = s.mem := rfl
@[simp] theorem State.advance_reg (cfg : Config) (s : State) (q : RegIndex) : (s.advance cfg).reg q = s.reg q := rfl
@[simp] theorem State.advance_byteAt (cfg : Config) (s : State) (b : Addr) : (s.advance cfg).byteAt b = s.byteAt b := rfl

/-! ## Equality of states -/

/-- Two states are equal when every field is, the registers read one by one. -/
theorem State.ext_reg {s t : State} (hr : ∀ q, t.reg q = s.reg q) (hp : t.pc = s.pc) (hi : t.ir = s.ir)
    (hn : t.run = s.run) (hf : t.fault = s.fault) (ho : t.out = s.out) (hm : t.mem = s.mem) : t = s := by
  have h : t.regs = s.regs := Vector.ext fun k hk => hr ⟨k, hk⟩
  cases s; cases t
  simp_all

/-- A stopped machine is HALTED or has a fault latched. -/
theorem State.stopped_iff (s : State) : s.stopped = true ↔ s.run = .halted ∨ s.fault ≠ none := by
  simp [State.stopped, Option.isSome_iff_ne_none]

theorem State.stopped_eq_false_iff (s : State) : s.stopped = false ↔ s.run = .running ∧ s.fault = none := by
  cases hr : s.run <;> cases hf : s.fault <;> simp [State.stopped, hr, hf]

end Sys2Proof.Machine
end

