-- ==== Sys2Proof/Laws/Memory.lean ====
section
/-! SUPPORT. The laws of the memory: a read after a write, a write leaves every other address alone, every operation keeps
the canonical form, and equal contents in that form are equal data. -/

namespace Sys2Proof

@[simp] theorem Memory.read_nil (a : Nat) : Memory.read [] a = Memory.unlisted := rfl

/-- The form, read at the head of a list. -/
theorem Memory.wf_cons (a : Nat) (v : Byte) (m : Memory) :
    Memory.wf ((a, v) :: m) = true ↔
      a < 256 ∧ v ≠ Memory.unlisted ∧ (∀ c ∈ m, a < c.1) ∧ Memory.wf m = true := by
  simp [Memory.wf, and_assoc]

/-- An address the list does not name reads as an unlisted one. -/
theorem Memory.read_of_not_mem {m : Memory} {a : Nat} (h : ∀ c ∈ m, c.1 ≠ a) :
    m.read a = Memory.unlisted := by
  induction m with
  | nil => rfl
  | cons c m ih =>
    obtain ⟨b, w⟩ := c
    have hb : a ≠ b := fun e => h (b, w) (by simp) e.symm
    simpa [Memory.read, hb] using ih fun c hc => h c (by simp [hc])

/-- A write leaves every other address alone, whatever the list. -/
theorem Memory.read_write_other (m : Memory) {a b : Nat} (v : Byte) (h : b ≠ a) :
    (m.write a v).read b = m.read b := by
  induction m with
  | nil =>
    by_cases hv : v = Memory.unlisted <;> simp [Memory.write, Memory.read, hv, h]
  | cons c m ih =>
    obtain ⟨d, w⟩ := c
    rcases lt_trichotomy a d with hd | rfl | hd
    · by_cases hv : v = Memory.unlisted <;> simp [Memory.write, Memory.read, hv, h, hd]
    · by_cases hv : v = Memory.unlisted <;> simp [Memory.write, Memory.read, hv, h]
    · simp [Memory.write, Memory.read, hd.not_gt, hd.ne', ih]

/-- A read after a write to the same address, in the canonical form. -/
theorem Memory.read_write_same {m : Memory} (hm : m.wf = true) (a : Nat) (v : Byte) :
    (m.write a v).read a = v := by
  induction m with
  | nil => by_cases hv : v = Memory.unlisted <;> simp [Memory.write, Memory.read, hv]
  | cons c m ih =>
    obtain ⟨d, w⟩ := c
    obtain ⟨-, -, hall, hwf⟩ := (Memory.wf_cons d w m).1 hm
    rcases lt_trichotomy a d with hd | rfl | hd
    · by_cases hv : v = Memory.unlisted
      · subst hv
        have hne : ∀ c ∈ m, c.1 ≠ a := fun c hc => (hd.trans (hall c hc)).ne'
        simp [Memory.write, Memory.read, hd, hd.ne, Memory.read_of_not_mem hne]
      · simp [Memory.write, Memory.read, hv, hd]
    · by_cases hv : v = Memory.unlisted
      · subst hv
        simpa [Memory.write] using Memory.read_of_not_mem fun c hc => (hall c hc).ne'
      · simp [Memory.write, Memory.read, hv]
    · simpa [Memory.write, Memory.read, hd.not_gt, hd.ne'] using ih hwf

/-- What a read gives after a write, at any address. -/
theorem Memory.read_write {m : Memory} (hm : m.wf = true) (a b : Nat) (v : Byte) :
    (m.write a v).read b = if b = a then v else m.read b := by
  split
  · next h => rw [h, Memory.read_write_same hm]
  · next h => exact Memory.read_write_other m v h

/-- Whatever a write adds or keeps is at the written address or was there before. -/
theorem Memory.mem_write {m : Memory} {a : Nat} {v : Byte} {c : Host.Cell} (h : c ∈ m.write a v) :
    c.1 = a ∨ c ∈ m := by
  induction m with
  | nil =>
    by_cases hv : v = Memory.unlisted
    · simp [Memory.write, hv] at h
    · left; simp [Memory.write, hv] at h; rw [h]
  | cons d m ih =>
    obtain ⟨b, w⟩ := d
    simp only [Memory.write] at h
    split at h
    · split at h
      · exact .inr h
      · rcases List.mem_cons.1 h with rfl | h
        · exact .inl rfl
        · exact .inr h
    · split at h
      · split at h
        · exact .inr (by simp [h])
        · rcases List.mem_cons.1 h with rfl | h
          · exact .inl rfl
          · exact .inr (by simp [h])
      · rcases List.mem_cons.1 h with rfl | h
        · exact .inr (by simp)
        · rcases ih h with h | h
          · exact .inl h
          · exact .inr (by simp [h])

/-- A write keeps the canonical form. -/
theorem Memory.write_wf {m : Memory} (hm : m.wf = true) {a : Nat} (ha : a < 256) (v : Byte) :
    (m.write a v).wf = true := by
  induction m with
  | nil => by_cases hv : v = Memory.unlisted <;> simp [Memory.write, Memory.wf, hv, ha]
  | cons c m ih =>
    obtain ⟨d, w⟩ := c
    obtain ⟨hd256, hw, hall, hwf⟩ := (Memory.wf_cons d w m).1 hm
    rcases lt_trichotomy a d with hd | rfl | hd
    · by_cases hv : v = Memory.unlisted
      · simpa [Memory.write, hd, hv] using hm
      · have : ∀ c ∈ (d, w) :: m, a < c.1 := by
          intro c hc
          rcases List.mem_cons.1 hc with rfl | hc
          · exact hd
          · exact hd.trans (hall c hc)
        simpa [Memory.write, hd, hv] using (Memory.wf_cons a v _).2 ⟨ha, hv, this, hm⟩
    · by_cases hv : v = Memory.unlisted
      · simpa [Memory.write, hv] using hwf
      · simpa [Memory.write, hv] using (Memory.wf_cons a v m).2 ⟨ha, hv, hall, hwf⟩
    · have : ∀ c ∈ Memory.write m a v, d < c.1 := by
        intro c hc
        rcases Memory.mem_write hc with h | h
        · rw [h]; exact hd
        · exact hall c h
      simpa [Memory.write, hd.not_gt, hd.ne'] using (Memory.wf_cons d w _).2 ⟨hd256, hw, this, ih hwf⟩

/-- Memories in the canonical form that read alike are equal. -/
theorem Memory.ext_read {m k : Memory} (hm : m.wf = true) (hk : k.wf = true)
    (h : ∀ a, m.read a = k.read a) : m = k := by
  induction m generalizing k with
  | nil =>
    cases k with
    | nil => rfl
    | cons c k =>
      obtain ⟨b, w⟩ := c
      obtain ⟨-, hw, -, -⟩ := (Memory.wf_cons b w k).1 hk
      exact absurd (by simpa [Memory.read] using h b) (Ne.symm hw)
  | cons c m ih =>
    obtain ⟨a, v⟩ := c
    obtain ⟨-, hv, hma, hmw⟩ := (Memory.wf_cons a v m).1 hm
    cases k with
    | nil => exact absurd (by simpa [Memory.read] using h a) hv
    | cons d k =>
      obtain ⟨b, w⟩ := d
      obtain ⟨-, hw, hkb, hkw⟩ := (Memory.wf_cons b w k).1 hk
      have hab : a = b := by
        rcases lt_trichotomy a b with hlt | he | hlt
        · have : Memory.read k a = Memory.unlisted :=
            Memory.read_of_not_mem fun c hc => (hlt.trans (hkb c hc)).ne'
          exact absurd (by simpa [Memory.read, hlt.ne, this] using h a) hv
        · exact he
        · have : Memory.read m b = Memory.unlisted :=
            Memory.read_of_not_mem fun c hc => (hlt.trans (hma c hc)).ne'
          exact absurd (by simpa [Memory.read, hlt.ne, this] using (h b).symm) hw
      subst hab
      have hvw : v = w := by simpa [Memory.read] using h a
      subst hvw
      congr 1
      refine ih hmw hkw fun x => ?_
      by_cases hx : x = a
      · subst hx
        rw [Memory.read_of_not_mem fun c hc => (hma c hc).ne', Memory.read_of_not_mem fun c hc => (hkb c hc).ne']
      · simpa [Memory.read, hx] using h x

namespace Machine

/-- Two addresses are the same where their numbers are. -/
theorem addr_toNat_ne {a b : Addr} (h : b ≠ a) : b.toNat ≠ a.toNat := fun e => h (BitVec.eq_of_toNat_eq e)

/-- The byte at an address after a store, in the canonical form (20_memory.md R51). -/
theorem State.store_byteAt {s : State} (hm : s.mem.wf = true) (a : Addr) (v : Byte) (b : Addr) :
    (s.store a v).byteAt b = if b = a then v else s.byteAt b := by
  by_cases h : b = a
  · subst h; simp [State.byteAt, Memory.read_write_same hm]
  · simp [State.byteAt, h, Memory.read_write_other _ _ (addr_toNat_ne h)]

/-- A byte just stored, in the canonical form. -/
theorem State.store_byteAt_same {s : State} (hm : s.mem.wf = true) (a : Addr) (v : Byte) :
    (s.store a v).byteAt a = v := by simp [State.store_byteAt hm]

/-- A store leaves the byte at every other address alone. -/
theorem State.store_byteAt_other (s : State) {a b : Addr} (v : Byte) (h : b ≠ a) :
    (s.store a v).byteAt b = s.byteAt b := by
  simp [State.byteAt, Memory.read_write_other _ _ (addr_toNat_ne h)]

/-- A store keeps the canonical form. -/
theorem State.store_wf {s : State} (hm : s.mem.wf = true) (a : Addr) (v : Byte) :
    (s.store a v).mem.wf = true := Memory.write_wf hm a.isLt v

/-- The memory after reset has the canonical form. -/
theorem State.reset_wf : State.reset.mem.wf = true := by decide

end Machine

end Sys2Proof
end

