-- ==== Sys2Proof/Laws/Ops.lean ====
section
/-! SUPPORT. One lemma per shared operation, saying everything it can do: the port, the operand checks, the handlers, the
fetch. Callers cite these instead of unfolding. -/

namespace Sys2Proof

/-! ## Wrapping to a width -/

/-- The number a wrap leaves. -/
theorem wrapTo_toNat (w : Nat) (a : Addr) : (wrapTo w a).toNat = a.toNat % 2 ^ w := by
  unfold wrapTo
  split
  · rw [BitVec.toNat_ofNat]
    exact Nat.mod_eq_of_lt ((Nat.mod_le _ _).trans_lt a.isLt)
  · next h => exact (Nat.mod_eq_of_lt (a.isLt.trans_le (Nat.pow_le_pow_right (by decide) (Nat.not_lt.1 h)))).symm

/-- A wrapped number fits the width. -/
theorem wrapTo_lt (w : Nat) (a : Addr) : (wrapTo w a).toNat < 2 ^ w := by
  rw [wrapTo_toNat]; exact Nat.mod_lt _ (Nat.two_pow_pos w)

/-- A number that fits the width is left as it is. -/
theorem wrapTo_of_lt {w : Nat} {a : Addr} (h : a.toNat < 2 ^ w) : wrapTo w a = a :=
  BitVec.eq_of_toNat_eq (by rw [wrapTo_toNat, Nat.mod_eq_of_lt h])

/-- At this hardware's width nothing is cut off. -/
@[simp] theorem wrapTo_8 (a : Addr) : wrapTo 8 a = a := rfl

/-- A sum wrapped at eight bits and then at fewer is the sum wrapped at fewer. -/
theorem wrapTo_add_toNat {w : Nat} (h : w ≤ 8) (a b : Addr) : (wrapTo w (a + b)).toNat = (a.toNat + b.toNat) % 2 ^ w := by
  rw [wrapTo_toNat, BitVec.toNat_add, Nat.mod_mod_of_dvd _ (Nat.pow_dvd_pow 2 h)]

namespace Machine

/-- With all eight address bits, an operand byte's address is its distance from the PC (20_memory.md R69). -/
theorem fetchAddr_full {cfg : Config} (h : cfg.addrWidth = 8) (pc k : Addr) : fetchAddr cfg pc k = pc + k := by
  simp [fetchAddr, h]

@[simp] theorem fetchAddr_hw (pc k : Addr) : fetchAddr Config.hw pc k = pc + k := fetchAddr_full rfl pc k

/-! ## The memory port -/

/-- With the whole of memory there, a read answers the byte. -/
theorem memRead_full {cfg : Config} (h : 256 ≤ cfg.memSize) (a : Addr) (s : State) :
    memRead cfg a s = .ok (s.byteAt a) := by
  simp [memRead, a.isLt.trans_le h]

/-- With the whole of memory there, a write stores the byte. -/
theorem memWrite_full {cfg : Config} (h : 256 ≤ cfg.memSize) (a : Addr) (v : Byte) (s : State) :
    memWrite cfg a v s = .ok (s.store a v) := by
  simp [memWrite, a.isLt.trans_le h]

@[simp] theorem memRead_hw (a : Addr) (s : State) : memRead Config.hw a s = .ok (s.byteAt a) :=
  memRead_full (by simp) a s

@[simp] theorem memWrite_hw (a : Addr) (v : Byte) (s : State) : memWrite Config.hw a v s = .ok (s.store a v) :=
  memWrite_full (by simp) a v s

/-! ## `poke` -/

/-- Everything a poke can do: nothing to a stopped machine; one byte stored; a MemRangeFault. -/
theorem State.poke_cases (cfg : Config) (s : State) (a : Addr) (v : Byte) :
    (s.stopped = true ∧ s.poke cfg a v = s) ∨
    (s.stopped = false ∧ a.toNat < cfg.memSize ∧ s.poke cfg a v = s.store a v) ∨
    (s.stopped = false ∧ cfg.memSize ≤ a.toNat ∧ s.poke cfg a v = s.raise (.memRange a)) := by
  cases hs : s.stopped
  · by_cases h : a.toNat < cfg.memSize
    · exact .inr (.inl ⟨rfl, h, by simp [State.poke, hs, memWrite, h]⟩)
    · exact .inr (.inr ⟨rfl, Nat.not_lt.1 h, by simp [State.poke, hs, memWrite, h]⟩)
  · exact .inl ⟨rfl, by simp [State.poke, hs]⟩

/-- A poke with the whole of memory there, on a machine that is not stopped, stores its byte. -/
theorem State.poke_full {cfg : Config} (h : 256 ≤ cfg.memSize) {s : State} (hs : s.stopped = false) (a : Addr) (v : Byte) :
    s.poke cfg a v = s.store a v := by
  simp [State.poke, hs, memWrite_full h]

theorem State.poke_hw {s : State} (hs : s.stopped = false) (a : Addr) (v : Byte) :
    s.poke Config.hw a v = s.store a v := State.poke_full (by simp) hs a v

theorem State.poke_stopped (cfg : Config) {s : State} (hs : s.stopped = true) (a : Addr) (v : Byte) :
    s.poke cfg a v = s := by simp [State.poke, hs]

@[simp] theorem State.poke_pc (cfg : Config) (s : State) (a : Addr) (v : Byte) : (s.poke cfg a v).pc = s.pc := by
  rcases s.poke_cases cfg a v with ⟨-, h⟩ | ⟨-, -, h⟩ | ⟨-, -, h⟩ <;> simp [h]

@[simp] theorem State.poke_ir (cfg : Config) (s : State) (a : Addr) (v : Byte) : (s.poke cfg a v).ir = s.ir := by
  rcases s.poke_cases cfg a v with ⟨-, h⟩ | ⟨-, -, h⟩ | ⟨-, -, h⟩ <;> simp [h]

@[simp] theorem State.poke_run (cfg : Config) (s : State) (a : Addr) (v : Byte) : (s.poke cfg a v).run = s.run := by
  rcases s.poke_cases cfg a v with ⟨-, h⟩ | ⟨-, -, h⟩ | ⟨-, -, h⟩ <;> simp [h]

@[simp] theorem State.poke_out (cfg : Config) (s : State) (a : Addr) (v : Byte) : (s.poke cfg a v).out = s.out := by
  rcases s.poke_cases cfg a v with ⟨-, h⟩ | ⟨-, -, h⟩ | ⟨-, -, h⟩ <;> simp [h]

@[simp] theorem State.poke_reg (cfg : Config) (s : State) (a : Addr) (v : Byte) (q : RegIndex) :
    (s.poke cfg a v).reg q = s.reg q := by
  rcases s.poke_cases cfg a v with ⟨-, h⟩ | ⟨-, -, h⟩ | ⟨-, -, h⟩ <;> simp [h]

/-- Storing a byte does not stop a machine or start it. -/
@[simp] theorem State.store_stopped (s : State) (a : Addr) (v : Byte) : (s.store a v).stopped = s.stopped := rfl

/-! ## Operand checks -/

theorem regOperand_of_lt {b : Byte} (h : b.toNat < 8) : regOperand b = some ⟨b.toNat, h⟩ := by
  simp [regOperand, h]

theorem regOperand_of_ge {b : Byte} (h : 8 ≤ b.toNat) : regOperand b = none := by
  simp [regOperand, h]

theorem regOperand_some {b : Byte} {r : RegIndex} : regOperand b = some r ↔ b.toNat = r.val := by
  unfold regOperand
  constructor
  · intro h
    split at h
    · simp at h; simp [← h]
    · simp at h
  · intro h
    simp [h]

@[simp] theorem regOk_iff {b : Byte} : regOk b = true ↔ b.toNat < 8 := by simp [regOk]

@[simp] theorem regOk_eq_false_iff {b : Byte} : regOk b = false ↔ 8 ≤ b.toNat := by simp [regOk]

theorem withReg_of_lt {b : Byte} (h : b.toNat < 8) (s : State) (k : RegIndex → State) :
    withReg b s k = k ⟨b.toNat, h⟩ := by simp [withReg, regOperand_of_lt h]

theorem withReg_of_ge {b : Byte} (h : 8 ≤ b.toNat) (s : State) (k : RegIndex → State) :
    withReg b s k = s.raise (.regIndex b) := by simp [withReg, regOperand_of_ge h]

/-- Everything the check of one operand can do. -/
theorem withReg_cases (b : Byte) (s : State) (k : RegIndex → State) :
    (∃ r : RegIndex, b.toNat = r.val ∧ withReg b s k = k r) ∨
    (8 ≤ b.toNat ∧ withReg b s k = s.raise (.regIndex b)) := by
  rcases Nat.lt_or_ge b.toNat 8 with h | h
  · exact .inl ⟨⟨_, h⟩, rfl, withReg_of_lt h s k⟩
  · exact .inr ⟨h, withReg_of_ge h s k⟩

/-- Everything the check of two operands can do: operand A is reported first. -/
theorem withRegs_cases (a b : Byte) (s : State) (k : RegIndex → RegIndex → State) :
    (∃ ra rb : RegIndex, a.toNat = ra.val ∧ b.toNat = rb.val ∧ withRegs a b s k = k ra rb) ∨
    (∃ c : Byte, 8 ≤ c.toNat ∧ (c = a ∨ (a.toNat < 8 ∧ c = b)) ∧ withRegs a b s k = s.raise (.regIndex c)) := by
  simp only [withRegs]
  rcases withReg_cases a s (fun ra => withReg b s fun rb => k ra rb) with ⟨ra, ha, e⟩ | ⟨ha, e⟩
  · rcases withReg_cases b s (k ra) with ⟨rb, hb, e'⟩ | ⟨hb, e'⟩
    · exact .inl ⟨ra, rb, ha, hb, e.trans e'⟩
    · exact .inr ⟨b, hb, .inr ⟨ha ▸ ra.isLt, rfl⟩, e.trans e'⟩
  · exact .inr ⟨a, ha, .inl rfl, e⟩

/-! ## The stack handlers -/

/-- Everything PUSH can do, for a memory of any size. -/
theorem handlePush_eq (cfg : Config) (a : Byte) (s : State) :
    handlePush cfg a s = withReg a s fun r =>
      if (pushAddr cfg s).toNat < cfg.memSize then
        ((s.setReg cfg.spReg (pushAddr cfg s)).store (pushAddr cfg s)
          ((s.setReg cfg.spReg (pushAddr cfg s)).reg r)).advance cfg
      else (s.setReg cfg.spReg (pushAddr cfg s)).raise (.memRange (pushAddr cfg s)) := by
  simp only [handlePush, memWrite, State.setReg_reg_same]
  by_cases h : (pushAddr cfg s).toNat < cfg.memSize <;> simp [h]

/-- Everything POP can do, for a memory of any size. -/
theorem handlePop_eq (cfg : Config) (a : Byte) (s : State) :
    handlePop cfg a s = withReg a s fun r =>
      if (popAddr cfg s).toNat < cfg.memSize then
        ((s.setReg r (s.byteAt (popAddr cfg s))).setReg cfg.spReg
          ((s.setReg r (s.byteAt (popAddr cfg s))).reg cfg.spReg + 1)).advance cfg
      else s.raise (.memRange (popAddr cfg s)) := by
  simp only [handlePop, memRead]
  by_cases h : (popAddr cfg s).toNat < cfg.memSize <;> simp [h]

/-- PUSH with the whole of memory there. -/
theorem handlePush_full {cfg : Config} (h : 256 ≤ cfg.memSize) (a : Byte) (s : State) :
    handlePush cfg a s = withReg a s fun r =>
      ((s.setReg cfg.spReg (pushAddr cfg s)).store (pushAddr cfg s)
        ((s.setReg cfg.spReg (pushAddr cfg s)).reg r)).advance cfg := by
  simp [handlePush_eq, (pushAddr cfg s).isLt.trans_le h]

/-- POP with the whole of memory there. -/
theorem handlePop_full {cfg : Config} (h : 256 ≤ cfg.memSize) (a : Byte) (s : State) :
    handlePop cfg a s = withReg a s fun r =>
      ((s.setReg r (s.byteAt (popAddr cfg s))).setReg cfg.spReg
        ((s.setReg r (s.byteAt (popAddr cfg s))).reg cfg.spReg + 1)).advance cfg := by
  simp [handlePop_eq, (popAddr cfg s).isLt.trans_le h]

/-- PUSH on this hardware: the register is read after the stack pointer is decremented. -/
theorem handlePush_hw (a : Byte) (s : State) :
    handlePush Config.hw a s = withReg a s fun r =>
      ((s.setReg 7 (s.reg 7 - 1)).store (s.reg 7 - 1) (if r = 7 then s.reg 7 - 1 else s.reg r)).advance Config.hw := by
  simp [handlePush_full (cfg := Config.hw) (by simp), pushAddr, State.setReg_reg]

/-- POP on this hardware: the stack pointer is read after the register is written. -/
theorem handlePop_hw (a : Byte) (s : State) :
    handlePop Config.hw a s = withReg a s fun r =>
      ((s.setReg r (s.byteAt (s.reg 7))).setReg 7 ((if r = 7 then s.byteAt (s.reg 7) else s.reg 7) + 1)).advance Config.hw := by
  simp [handlePop_full (cfg := Config.hw) (by simp), popAddr, State.setReg_reg, eq_comm]

/-! ## The fetch -/

/-- Everything the fetch of an executing machine can do, for a memory of any size: a refusal at the first fetch address at
or above MEM_SIZE, a halt on a miss, or the instruction. -/
theorem startTick_eq (cfg : Config) {s : State} (hs : s.stopped = false) :
    startTick cfg s =
      if s.pc.toNat < cfg.memSize then
        if (fetchAddr cfg s.pc 1).toNat < cfg.memSize then
          if (fetchAddr cfg s.pc 2).toNat < cfg.memSize then
            match decodeBytes cfg (s.byteAt s.pc) (s.byteAt (fetchAddr cfg s.pc 1)) (s.byteAt (fetchAddr cfg s.pc 2)) with
            | .error _ => .done (s.setIr (s.byteAt s.pc)).halt
            | .ok i => .instr i (s.setIr (s.byteAt s.pc))
          else .done ((s.setIr (s.byteAt s.pc)).raise (.memRange (fetchAddr cfg s.pc 2)))
        else .done ((s.setIr (s.byteAt s.pc)).raise (.memRange (fetchAddr cfg s.pc 1)))
      else .done (s.raise (.memRange s.pc)) := by
  cases hd : decodeBytes cfg (s.byteAt s.pc) (s.byteAt (fetchAddr cfg s.pc 1)) (s.byteAt (fetchAddr cfg s.pc 2)) <;>
  by_cases h0 : s.pc.toNat < cfg.memSize <;>
  by_cases h1 : (fetchAddr cfg s.pc 1).toNat < cfg.memSize <;>
  by_cases h2 : (fetchAddr cfg s.pc 2).toNat < cfg.memSize <;>
  simp only [startTick, hs, fetch, memRead, h0, h1, h2, hd, if_true, if_false, Bool.false_eq_true, State.setIr_pc,
    State.setIr_byteAt]

/-- With the whole of memory there, the start of an executing machine's tick: `ir` is the byte at `pc`, and a miss halts. -/
theorem startTick_full {cfg : Config} (h : 256 ≤ cfg.memSize) {s : State} (hs : s.stopped = false) :
    startTick cfg s =
      match decodeBytes cfg (s.byteAt s.pc) (s.byteAt (fetchAddr cfg s.pc 1)) (s.byteAt (fetchAddr cfg s.pc 2)) with
      | .error _ => .done (s.setIr (s.byteAt s.pc)).halt
      | .ok i => .instr i (s.setIr (s.byteAt s.pc)) := by
  have hlt : ∀ a : Addr, a.toNat < cfg.memSize := fun a => a.isLt.trans_le h
  rw [startTick_eq cfg hs, if_pos (hlt _), if_pos (hlt _), if_pos (hlt _)]

theorem startTick_stopped {cfg : Config} {s : State} (hs : s.stopped = true) : startTick cfg s = .done s := by
  simp [startTick, hs]

end Machine

end Sys2Proof
end

