-- ==== Sys2Proof/Laws/Step.lean ====
section
/-! SUPPORT. What a meaning and a step can do: `exec` answers the handler's state, `step` is the tick of this hardware, and
one inversion lemma for the step. -/

namespace Sys2Proof.Machine

/-- Every meaning answers the state its handler leaves: no instruction ends in a fault or a refusal. -/
theorem exec_eq_perform (i : Instr) (s : State) : exec i s = .next (perform Config.hw i s) := by cases i <;> rfl

/-- `step` is the tick at this hardware's parameters. -/
theorem step_eq_tick (s : State) : step s = .next (tick Config.hw s) := by
  simp only [step, tick]
  cases startTick Config.hw s <;> simp [exec_eq_perform]

/-- A step's next state is the tick's. -/
theorem step_next_iff {s t : State} : step s = .next t ↔ t = tick Config.hw s := by
  rw [step_eq_tick]; simp [eq_comm]

/-- Everything a tick can do where the whole of memory is there: nothing on a stopped machine; an implicit halt on an
unassigned opcode; the handler of the fetched instruction otherwise. -/
theorem tick_cases {cfg : Config} (h : 256 ≤ cfg.memSize) (s : State) :
    (s.stopped = true ∧ tick cfg s = s) ∨
    (s.stopped = false ∧ lookup cfg (s.byteAt s.pc) = none ∧ tick cfg s = (s.setIr (s.byteAt s.pc)).halt) ∨
    (s.stopped = false ∧ ∃ m, lookup cfg (s.byteAt s.pc) = some m ∧
      tick cfg s = perform cfg
        (assemble m (s.byteAt (fetchAddr cfg s.pc 1)) (s.byteAt (fetchAddr cfg s.pc 2))) (s.setIr (s.byteAt s.pc))) := by
  cases hs : s.stopped
  · right
    cases hl : lookup cfg (s.byteAt s.pc) with
    | none => exact .inl ⟨rfl, rfl, by simp [tick, startTick_full h hs, decodeBytes, hl]⟩
    | some m => exact .inr ⟨rfl, m, rfl, by simp [tick, startTick_full h hs, decodeBytes, hl]⟩
  · exact .inl ⟨rfl, by simp [tick, startTick_stopped hs]⟩

/-- The same of this hardware, its fetch addresses written out. -/
theorem tick_cases_hw (s : State) :
    (s.stopped = true ∧ tick Config.hw s = s) ∨
    (s.stopped = false ∧ lookup Config.hw (s.byteAt s.pc) = none ∧ tick Config.hw s = (s.setIr (s.byteAt s.pc)).halt) ∨
    (s.stopped = false ∧ ∃ m, lookup Config.hw (s.byteAt s.pc) = some m ∧
      tick Config.hw s =
        perform Config.hw (assemble m (s.byteAt (s.pc + 1)) (s.byteAt (s.pc + 2))) (s.setIr (s.byteAt s.pc))) := by
  simpa using tick_cases (cfg := Config.hw) (by simp) s

/-- A stopped machine's tick leaves it as it is. -/
theorem tick_stopped (cfg : Config) {s : State} (hs : s.stopped = true) : tick cfg s = s := by
  simp [tick, startTick_stopped hs]

/-! ## The host's session -/

/-- Everything a host event can do: a poke while loading; a tick starting, or completing; reading between ticks. -/
theorem hostMove_cases {cfg : Config} {p q : HostPhase} {s t : State} {e : HostEvent}
    (h : hostMove cfg p s e = some (q, t)) :
    (∃ a v, e = .poke a v ∧ p = .loading ∧ q = .loading ∧ t = s.poke cfg a v) ∨
    (e = .tickRequest ∧ p ≠ .inTick ∧ q = .inTick ∧ t = s) ∨
    (e = .tickDone ∧ p = .inTick ∧ q = .between ∧ t = tick cfg s) ∨
    ((e = .readOutput ∨ e = .inspect) ∧ p ≠ .inTick ∧ q = p ∧ t = s) := by
  cases e <;> cases p <;> simp_all [hostMove, eq_comm]

/-- A session's first event has a move, and the rest is a session from where it leads. -/
theorem session_cons {cfg : Config} {p q : HostPhase} {s t : State} {e : HostEvent} {es : List HostEvent} :
    session cfg p s (e :: es) = some (q, t) ↔
      ∃ r u, hostMove cfg p s e = some (r, u) ∧ session cfg r u es = some (q, t) := by
  cases h : hostMove cfg p s e <;> simp [session, h, Prod.ext_iff]

theorem pokesOf_cons (e : HostEvent) (es : List HostEvent) : pokesOf (e :: es) = e.poked.toList ++ pokesOf es := by
  cases e <;> rfl

theorem ticksOf_cons (e : HostEvent) (es : List HostEvent) :
    ticksOf (e :: es) = ticksOf es + if e = .tickDone then 1 else 0 := by
  simp [ticksOf, List.count_cons]

end Sys2Proof.Machine
end

