-- ==== Sys2Proof/Laws/Exec.lean ====
section
/-! SUPPORT. Each meaning as one equation over the named updates, where its operands name registers, and one equation for
every instruction with a bad operand. The provers cite these instead of unfolding a meaning. -/

namespace Sys2Proof.Machine

/-- A byte that is a register's number names that register. -/
theorem withReg_reg {b : Byte} {r : RegIndex} (h : b.toNat = r.val) (s : State) (k : RegIndex → State) :
    withReg b s k = k r := by
  have : regOperand b = some r := regOperand_some.2 h
  simp [withReg, this]

theorem withRegs_reg {a b : Byte} {ra rb : RegIndex} (ha : a.toNat = ra.val) (hb : b.toNat = rb.val) (s : State)
    (k : RegIndex → RegIndex → State) : withRegs a b s k = k ra rb := by
  simp [withRegs, withReg_reg ha, withReg_reg hb]

theorem exec_nop (s : State) : exec .nop s = .next (s.advance Config.hw) := rfl

theorem exec_hlt (s : State) : exec .hlt s = .next (s.halt.advance Config.hw) := rfl

theorem exec_ldi {a : Byte} {r : RegIndex} (h : a.toNat = r.val) (v : Byte) (s : State) :
    exec (.ldi a v) s = .next ((s.setReg r v).advance Config.hw) := by
  simp [exec, execLdi, handleLdi, withReg_reg h]

theorem exec_prn {a : Byte} {r : RegIndex} (h : a.toNat = r.val) (s : State) :
    exec (.prn a) s = .next ((s.emit (s.reg r)).advance Config.hw) := by
  simp [exec, execPrn, handlePrn, withReg_reg h]

theorem exec_add {a b : Byte} {ra rb : RegIndex} (ha : a.toNat = ra.val) (hb : b.toNat = rb.val) (s : State) :
    exec (.add a b) s = .next ((s.setReg ra (s.reg ra + s.reg rb)).advance Config.hw) := by
  simp [exec, execAdd, handleAlu2, aluApply, aluResult, withRegs_reg ha hb]

theorem exec_mul {a b : Byte} {ra rb : RegIndex} (ha : a.toNat = ra.val) (hb : b.toNat = rb.val) (s : State) :
    exec (.mul a b) s = .next ((s.setReg ra (s.reg ra * s.reg rb)).advance Config.hw) := by
  simp [exec, execMul, handleAlu2, aluApply, aluResult, withRegs_reg ha hb]

theorem exec_and {a b : Byte} {ra rb : RegIndex} (ha : a.toNat = ra.val) (hb : b.toNat = rb.val) (s : State) :
    exec (.and a b) s = .next ((s.setReg ra (s.reg ra &&& s.reg rb)).advance Config.hw) := by
  simp [exec, execAnd, handleAlu2, aluApply, aluResult, withRegs_reg ha hb]

theorem exec_inc {a : Byte} {r : RegIndex} (h : a.toNat = r.val) (s : State) :
    exec (.inc a) s = .next ((s.setReg r (s.reg r + 1)).advance Config.hw) := by
  simp [exec, execInc, handleAlu1, aluApply, aluResult, withReg_reg h]

theorem exec_dec {a : Byte} {r : RegIndex} (h : a.toNat = r.val) (s : State) :
    exec (.dec a) s = .next ((s.setReg r (s.reg r - 1)).advance Config.hw) := by
  simp [exec, execDec, handleAlu1, aluApply, aluResult, withReg_reg h]

/-- PUSH: the register is read after the stack pointer is decremented. -/
theorem exec_push {a : Byte} {r : RegIndex} (h : a.toNat = r.val) (s : State) :
    exec (.push a) s = .next
      (((s.setReg 7 (s.reg 7 - 1)).store (s.reg 7 - 1) (if r = 7 then s.reg 7 - 1 else s.reg r)).advance Config.hw) := by
  simp [exec, execPush, handlePush_hw, withReg_reg h]

/-- POP: the stack pointer is read after the register is written. -/
theorem exec_pop {a : Byte} {r : RegIndex} (h : a.toNat = r.val) (s : State) :
    exec (.pop a) s = .next
      (((s.setReg r (s.byteAt (s.reg 7))).setReg 7 ((if r = 7 then s.byteAt (s.reg 7) else s.reg 7) + 1)).advance Config.hw) := by
  simp [exec, execPop, handlePop_hw, withReg_reg h]

/-- An instruction is well formed when it has no bad operand. -/
theorem badOperand_none_iff (i : Instr) : i.badOperand = none ↔ i.wellFormed = true := by
  cases i <;> simp only [Instr.badOperand, Instr.wellFormed] <;> (repeat' split) <;> simp_all

/-- A bad operand is above 7. -/
theorem badOperand_some {i : Instr} {c : Byte} (h : i.badOperand = some c) : 8 ≤ c.toNat := by
  cases i <;> simp only [Instr.badOperand] at h <;> (repeat' split at h) <;> simp_all

/-- The handler of an instruction with a bad operand latches the fault and does nothing else. -/
theorem perform_bad (cfg : Config) {i : Instr} {c : Byte} (h : i.badOperand = some c) (s : State) :
    perform cfg i s = s.raise (.regIndex c) := by
  cases i <;> simp only [Instr.badOperand] at h <;> (repeat' split at h) <;>
    simp_all [perform, handlePrn, handlePop, handlePush, handleAlu1, handleAlu2, handleLdi, withRegs,
      withReg_of_ge, withReg_of_lt]

theorem exec_bad {i : Instr} {c : Byte} (h : i.badOperand = some c) (s : State) :
    exec i s = .next (s.raise (.regIndex c)) := by
  rw [exec_eq_perform, perform_bad _ h]

end Sys2Proof.Machine
end

