-- ==== Sys2Proof/Laws/PerInstr.lean ====
section
/-! SUPPORT. The per-instruction family Arity (40_cycle_and_dispatch.md R119, 30_encoding.md R80, R87): under this hardware's
assignment the count declared by the opcode byte is the number of operand bytes encoded, and bit 5 tells the ALU operations. -/

/-- The encoded length is the declared count plus one, and the `alu` bit is right. -/
def Sys2Proof.Laws.Arity.Statement (i : Sys2Proof.Instr) : Prop :=
  (Sys2Proof.encode Sys2Proof.Config.hw i).length =
      (Sys2Proof.operandCount (Sys2Proof.opcodeOf Sys2Proof.Config.hw i)).toNat + 1 ∧
    Sys2Proof.aluFlag (Sys2Proof.opcodeOf Sys2Proof.Config.hw i) = i.mnemonic.isAlu

/-- Both parts for any instruction, from constraints 2 and 3 of R87. -/
theorem Sys2Proof.Laws.arity_of_legal (i : Sys2Proof.Instr) : Sys2Proof.Laws.Arity.Statement i := by
  have h := Sys2Proof.Config.legal_opc Sys2Proof.Config.hw_legal
  refine ⟨?_, Sys2Proof.Opc.aluFlag_eq h _⟩
  simp [Sys2Proof.encode, Sys2Proof.opcodeOf, Sys2Proof.Opc.count_eq_arity h]

theorem Sys2Proof.Laws.Arity.nop : Sys2Proof.Laws.Arity.Statement .nop := Sys2Proof.Laws.arity_of_legal _

theorem Sys2Proof.Laws.Arity.hlt : Sys2Proof.Laws.Arity.Statement .hlt := Sys2Proof.Laws.arity_of_legal _

theorem Sys2Proof.Laws.Arity.prn (a : Sys2Proof.Byte) : Sys2Proof.Laws.Arity.Statement (.prn a) :=
  Sys2Proof.Laws.arity_of_legal _

theorem Sys2Proof.Laws.Arity.pop (a : Sys2Proof.Byte) : Sys2Proof.Laws.Arity.Statement (.pop a) :=
  Sys2Proof.Laws.arity_of_legal _

theorem Sys2Proof.Laws.Arity.push (a : Sys2Proof.Byte) : Sys2Proof.Laws.Arity.Statement (.push a) :=
  Sys2Proof.Laws.arity_of_legal _

theorem Sys2Proof.Laws.Arity.inc (a : Sys2Proof.Byte) : Sys2Proof.Laws.Arity.Statement (.inc a) :=
  Sys2Proof.Laws.arity_of_legal _

theorem Sys2Proof.Laws.Arity.dec (a : Sys2Proof.Byte) : Sys2Proof.Laws.Arity.Statement (.dec a) :=
  Sys2Proof.Laws.arity_of_legal _

theorem Sys2Proof.Laws.Arity.ldi (a v : Sys2Proof.Byte) : Sys2Proof.Laws.Arity.Statement (.ldi a v) :=
  Sys2Proof.Laws.arity_of_legal _

theorem Sys2Proof.Laws.Arity.add (a b : Sys2Proof.Byte) : Sys2Proof.Laws.Arity.Statement (.add a b) :=
  Sys2Proof.Laws.arity_of_legal _

theorem Sys2Proof.Laws.Arity.mul (a b : Sys2Proof.Byte) : Sys2Proof.Laws.Arity.Statement (.mul a b) :=
  Sys2Proof.Laws.arity_of_legal _

theorem Sys2Proof.Laws.Arity.and (a b : Sys2Proof.Byte) : Sys2Proof.Laws.Arity.Statement (.and a b) :=
  Sys2Proof.Laws.arity_of_legal _
end

