-- ==== Sys2Proof/Tests/Slice0.lean ====
section
/-! SUPPORT. The model's own tests: the ill-formed terms each check refuses, the words of 30_encoding.md R83 and R88 decoded,
one-step vectors of 95_test_vectors.md (each names its table), and for every obligation with hypotheses a state and operands
that meet them. -/

namespace Sys2Proof.Tests

open Sys2Proof.Machine

/-- The reset state with the PC at `pc` and bytes poked from there. -/
def progAt (pc : Addr) (bytes : List Byte) : State := (State.reset.setPc pc).loadAt Config.hw pc bytes

/-- The next state of an outcome. -/
def next? (o : Host.Outcome State Fault Refusal) : Option State :=
  match o with
  | .next s => some s
  | .fault _ => none
  | .refused _ => none

/-- One field of the state after a step. -/
def afterStep {α : Type} (s : State) (f : State → α) : Option α := (next? (step s)).map f

/-! ## Well-formedness: each check refuses an ill-formed term -/

theorem test_wellFormed_registers_up_to_7 :
    (Instr.ldi 7 255).wellFormed = true ∧ (Instr.and 7 7).wellFormed = true ∧ Instr.hlt.wellFormed = true := by decide

theorem test_illFormed_one_operand :
    (Instr.prn 8).wellFormed = false ∧ (Instr.pop 8).wellFormed = false ∧ (Instr.push 255).wellFormed = false ∧
    (Instr.inc 8).wellFormed = false ∧ (Instr.dec 128).wellFormed = false ∧ (Instr.ldi 8 0).wellFormed = false := by decide

theorem test_illFormed_two_operands :
    (Instr.add 8 0).wellFormed = false ∧ (Instr.add 0 8).wellFormed = false ∧ (Instr.mul 0 8).wellFormed = false ∧
    (Instr.and 8 8).wellFormed = false := by decide

theorem test_illFormed_assignments :
    ({ Opc.default with add := 0xAA } : Opc).distinct = false ∧
    ({ Opc.default with hlt := 0x41 } : Opc).countsAgree = false ∧
    ({ Opc.default with add := 0x88 } : Opc).aluBitsAgree = false ∧
    Opc.default.legal = true := by decide

/-- Each check of the widths: addresses, PC, memory out of reach, a RESET_PC the PC cannot hold. -/
theorem test_illFormed_widths :
    ({ Config.hw with addrWidth := 9 } : Config).widthsFit = false ∧
    ({ Config.hw with pcWidth := 9 } : Config).widthsFit = false ∧
    ({ Config.hw with memSize := 257 } : Config).widthsFit = false ∧
    ({ Config.hw with addrWidth := 4, memSize := 17 } : Config).widthsFit = false ∧
    ({ Config.hw with pcWidth := 4, resetPc := 16 } : Config).widthsFit = false ∧
    ({ Config.hw with pcWidth := 9 } : Config).legal = false := by decide

theorem test_illFormed_memories :
    Memory.wf [(3, 1), (2, 1)] = false ∧ Memory.wf [(2, 1), (2, 1)] = false ∧ Memory.wf [(2, 0)] = false ∧
    Memory.wf [(256, 1)] = false ∧ Memory.wf [(2, 1), (3, 1)] = true := by decide

/-! ## Decoding: words written out from 30_encoding.md R83 and R88 -/

theorem test_decode_nop : decodeTableWord 8 0b00000000 = some .nop := by decide

theorem test_decode_hlt : decodeTableWord 8 0b00000001 = some .hlt := by decide

theorem test_decode_prn : decodeTableWord 16 0b00000011_01000011 = some (.prn 3) := by decide

theorem test_decode_pop : decodeTableWord 16 0b00000011_01001100 = some (.pop 3) := by decide

theorem test_decode_push : decodeTableWord 16 0b10000010_01001101 = some (.push 130) := by decide

theorem test_decode_inc : decodeTableWord 16 0b00000010_01111000 = some (.inc 2) := by decide

theorem test_decode_dec : decodeTableWord 16 0b00000010_01111001 = some (.dec 2) := by decide

theorem test_decode_ldi : decodeTableWord 24 0b00001000_00000001_10011001 = some (.ldi 1 8) := by decide

theorem test_decode_add : decodeTableWord 24 0b00000001_00000010_10101000 = some (.add 2 1) := by decide

theorem test_decode_mul : decodeTableWord 24 0b00000001_00000010_10101010 = some (.mul 2 1) := by decide

theorem test_decode_and : decodeTableWord 24 0b00000001_00000010_10110011 = some (.and 2 1) := by decide

/-- Bits above `nbits` are zero: operand words of zeros. -/
theorem test_decode_short_row : decodeTableWord 8 0b11111111_10011001 = some (.ldi 0 0) := by decide

/-- Table V-CNT: bytes that share low bits with LDI, or have the `alu` bit alone, are not dispatched. -/
theorem test_decode_near_misses :
    ([0x3F, 0x40, 0x7F, 0x80, 0xBF, 0xC0, 0xFF, 0x19, 0x59, 0xD9, 0x21, 0x23] : List Byte).all
      (fun op => lookup Config.hw op == none) = true := by decide

/-- R90: 245 of the 256 byte values are unassigned. -/
theorem test_unassigned_count :
    ((List.range 256).filter fun n => lookup Config.hw (BitVec.ofNat 8 n) == none).length = 245 := by decide +kernel

theorem test_decode_list :
    decode Config.hw [0x4D, 2, 0x99] = .ok (.push 2, [0x99]) ∧ decode Config.hw [0x99, 1] = .error .truncated ∧
    decode Config.hw [0xFF, 0, 0] = .error (.unknownOpcode 0xFF) := by decide

/-- Scenario S5's bytes of LDI and MUL. -/
theorem test_encode :
    encode Config.hw (.ldi 0 8) = [0x99, 0x00, 0x08] ∧ encode Config.hw (.mul 0 1) = [0xAA, 0x00, 0x01] ∧
    encode Config.hw .hlt = [0x01] := by decide

/-- The fields of LDI's byte (opcode_table.source.json). -/
theorem test_opcode_fields : operandCount 0x99 = 2 ∧ aluFlag 0x99 = false ∧ opField 0x99 = 0b11001 := by decide

/-! ## One step (95_test_vectors.md part 2) -/

/-- The host's first step after reset: an instruction's bits placed at the fetch address. -/
theorem test_withFetchWord_runs :
    afterStep (State.reset.withFetchWord 24 0x080099) (fun t => (t.reg 0, t.pc, t.ir)) = some (8, 3, 0x99) := by decide

/-- V-HLT row 2: at the top of memory the PC wraps. -/
theorem test_hlt_wraps :
    afterStep (progAt 255 [0x01]) (fun t => (t.ir, t.run, t.pc)) = some (0x01, .halted, 0) := by decide

/-- V-HLT row 6: a halted machine does nothing. -/
theorem test_hlt_freezes : next? (step (progAt 12 [0x99, 0, 8]).halt) = some (progAt 12 [0x99, 0, 8]).halt := by decide

/-- V-NOP row 5: the bytes after a NOP are not checked. -/
theorem test_nop_ignores_operands :
    afterStep (progAt 4 [0x00, 0xFF, 0xFF]) (fun t => (t.pc, t.run, t.fault)) = some (5, .running, none) := by decide

/-- V-LDI row 8: an instruction that straddles the top of memory. -/
theorem test_ldi_straddles_top :
    afterStep (progAt 254 [0x99, 0x03, 0x2A]) (fun t => (t.reg 3, t.pc)) = some (0x2A, 1) := by decide

/-- V-LDI row 5: RegIndexFault(8), with `ir` written, the PC and `run` as they were. -/
theorem test_ldi_faults :
    afterStep (progAt 0 [0x99, 0x08, 0x01]) (fun t => (t.fault, t.ir, t.pc, t.run)) =
      some (some (.regIndex 8), 0x99, 0, .running) := by decide

/-- V-PRN rows 2 and 3: values are appended, unsigned. -/
theorem test_prn_appends :
    afterStep (((progAt 9 [0x43, 2]).setReg 2 255).emit 72) (fun t => (t.out, t.pc)) = some ([72, 255], 11) := by decide

/-- V-PRN row 5: a fault emits nothing. -/
theorem test_prn_fault_emits_nothing :
    afterStep (progAt 0 [0x43, 8]) (fun t => (t.out, t.pc, t.fault)) = some ([], 0, some (.regIndex 8)) := by decide

/-- V-ADD: 200 + 100 is 44, and the source is unchanged. -/
theorem test_add_wraps :
    afterStep (((progAt 0 [0xA8, 0, 1]).setReg 0 200).setReg 1 100) (fun t => (t.reg 0, t.reg 1, t.pc)) =
      some (44, 100, 3) := by decide

/-- V-ADD faults: operand B is checked. -/
theorem test_add_checks_operand_b :
    afterStep ((progAt 0 [0xA8, 0, 8]).setReg 0 1) (fun t => (t.reg 0, t.fault)) = some (1, some (.regIndex 8)) := by decide

/-- V-MUL: 0xAA * 0x55 is 114. -/
theorem test_mul_low_byte :
    afterStep (((progAt 0 [0xAA, 0, 1]).setReg 0 0xAA).setReg 1 0x55) (fun t => t.reg 0) = some 114 := by decide

/-- V-MUL faults: operand A is reported when both are bad. -/
theorem test_mul_reports_operand_a :
    afterStep (progAt 0 [0xAA, 8, 9]) (fun t => t.fault) = some (some (.regIndex 8)) := by decide

/-- V-AND: 0xF0 and 0x3C give 0x30. -/
theorem test_and_bits :
    afterStep (((progAt 0 [0xB3, 0, 1]).setReg 0 0xF0).setReg 1 0x3C) (fun t => t.reg 0) = some 0x30 := by decide

/-- V-AND: the same register twice, the stack pointer, is unchanged. -/
theorem test_and_same_register : afterStep (progAt 0 [0xB3, 7, 7]) (fun t => (t.reg 7, t.fault)) = some (0xF4, none) := by
  decide

/-- V-INCDEC: 255 goes to 0, and the byte after the operand is not checked. -/
theorem test_inc_wraps :
    afterStep ((progAt 0 [0x78, 2, 0xFF]).setReg 2 255) (fun t => (t.reg 2, t.pc, t.fault)) = some (0, 2, none) := by decide

/-- V-INCDEC: 0 goes to 255. -/
theorem test_dec_wraps : afterStep (progAt 0 [0x79, 2]) (fun t => (t.reg 2, t.pc)) = some (255, 2) := by decide

/-- V-STACK row 3: the stack pointer wraps down. -/
theorem test_push_wraps :
    afterStep (((progAt 16 [0x4D, 0]).setReg 0 0xAB).setReg 7 0) (fun t => (t.reg 7, t.byteAt 0xFF)) =
      some (0xFF, 0xAB) := by decide

/-- V-STACK row 5: PUSH 7 stores the decremented stack pointer. -/
theorem test_push_sp : afterStep (progAt 0 [0x4D, 7]) (fun t => (t.reg 7, t.byteAt 0xF3)) = some (0xF3, 0xF3) := by decide

/-- V-STACK row 4: the stack pointer wraps up, the popped byte stays. -/
theorem test_pop_wraps :
    afterStep (((progAt 16 [0x4C, 1]).setReg 7 0xFF).store 0xFF 0xAB)
      (fun t => (t.reg 1, t.reg 7, t.byteAt 0xFF)) = some (0xAB, 0, 0xAB) := by decide

/-- V-STACK row 6: POP 7 loads the stack pointer, then increments it. -/
theorem test_pop_sp :
    afterStep (((progAt 0 [0x4C, 7]).setReg 7 0xF3).store 0xF3 0x20) (fun t => t.reg 7) = some 0x21 := by decide

/-- V-STACK row 10: a PUSH that overwrites its own operand byte pushes the register the byte named before. -/
theorem test_push_own_operand :
    afterStep (((progAt 6 [0x4D, 0]).setReg 0 5).setReg 7 8) (fun t => (t.reg 7, t.byteAt 7, t.pc)) = some (7, 5, 8) := by
  decide

/-- V-HALT: the miss is decided before any operand is looked at, and the PC stays. -/
theorem test_implicit_halt :
    afterStep (progAt 3 [0xFF, 9, 9]) (fun t => (t.run, t.fault, t.ir, t.pc)) = some (.halted, none, 0xFF, 3) := by decide

/-- V-INCDEC, last line: without the switch the byte of INC is an implicit halt. -/
theorem test_incdec_switch :
    (tick { Config.hw with incDecDispatched := false } (progAt 0 [0x78, 2])).EndOfRun := by decide

/-- A machine of 16 bytes, with addresses and PC of four bits. -/
def fourBits : Config := { Config.hw with addrWidth := 4, pcWidth := 4, memSize := 16 }

/-- LDI across the top of its memory, operand B at address 0 (20_memory.md R69 at ADDR_WIDTH = 4). -/
def acrossFourBits : State := (progAt 14 [0x99, 3]).poke Config.hw 0 42

/-- 00_scope.md R6 at ADDR_WIDTH = PC_WIDTH = 4: operand B from (14 + 2) mod 16, the PC at (14 + 3) mod 16. -/
theorem test_widths_of_four :
    (tick fourBits acrossFourBits).reg 3 = 42 ∧ (tick fourBits acrossFourBits).pc = 1 ∧
    (tick fourBits acrossFourBits).fault = none := by decide

/-- 43_prn.md R161: "72" and "0" with a line break each; 255 is never -1. -/
theorem test_output_text :
    outputText [72, 0, 255] = ['7', '2', '\n', '0', '\n', '2', '5', '5', '\n'] := by decide

/-! ## Witnesses: every obligation's hypotheses are met -/

/-- A second assignment that meets R87: ADD and MUL exchanged. -/
def swappedOpc : Opc := { Opc.default with add := Opc.default.mul, mul := Opc.default.add }

theorem witness_OperandCountIsTopTwoBits : 0xC0 ≤ (0xC0 : Byte).toNat ∧ (0x3F : Byte).extractLsb' 6 2 = (0x01 : Byte).extractLsb' 6 2 := by decide

theorem witness_LookupIsWholeByteEquality : Config.hw.legal = true := by decide

theorem witness_UnassignedBytesMissTheTable : Config.hw.legal = true ∧ (operandCount 0xC0).toNat = 3 := by decide

theorem witness_DecodeInvertsEncode :
    Config.hw.legal = true ∧ Config.hw.dispatches (Instr.ldi 255 255).mnemonic = true := by decide

theorem witness_EncodeInvertsDecode :
    Config.hw.legal = true ∧ decode Config.hw [0x99, 0xFF, 8, 1] = .ok (.ldi 0xFF 8, [1]) := by decide

theorem witness_TickRunsEncodedInstruction :
    Config.hw.legal = true ∧ Config.hw.memSize = 256 ∧ Config.hw.dispatches (Instr.ldi 7 9).mnemonic = true ∧
    (progAt 254 [0x99, 7, 9]).Executing ∧ (Instr.ldi 7 9).wellFormed = true ∧
    ∀ k, k < (encode Config.hw (.ldi 7 9)).length →
      (progAt 254 [0x99, 7, 9]).byteAt ((progAt 254 [0x99, 7, 9]).pc + BitVec.ofNat 8 k) =
        (encode Config.hw (.ldi 7 9)).getD k 0 := by decide

theorem witness_OpcodeNumbersDoNotMatter : Config.hw.opc.legal = true ∧ swappedOpc.legal = true := by decide

theorem reset_is_ResetState : State.ResetState State.reset := ⟨Config.hw, rfl, rfl, rfl⟩

/-- A reset state other than `State.reset`: the OPEN parameters are free. -/
theorem witness_ResetLeavesStatedValues :
    State.ResetState (State.resetOf { Config.hw with gprReset := Vector.replicate 8 9, irReset := 7, memInit := [(3, 5)] }) :=
  ⟨{ Config.hw with gprReset := Vector.replicate 8 9, irReset := 7, memInit := [(3, 5)] }, rfl, by decide, rfl⟩

theorem witness_InvariantHoldsAtReset : State.ResetState State.reset := reset_is_ResetState

theorem witness_MemoryPortReadsLatestWrite : (progAt 255 [1]).mem.wf = true := by decide

theorem witness_PokeWritesOneByte : (progAt 255 [1]).mem.wf = true ∧ (progAt 255 [1]).Executing := by decide

theorem witness_LoadPutsProgramAtZero :
    State.reset.mem.wf = true ∧ State.reset.Executing ∧ (List.replicate 256 (1 : Byte)).length ≤ 256 :=
  ⟨rfl, by decide, List.length_replicate.le⟩

theorem witness_FirstTickRunsFirstByte :
    State.ResetState State.reset ∧ (List.replicate 255 (1 : Byte)).length ≤ 255 := ⟨reset_is_ResetState, List.length_replicate.le⟩

theorem witness_FirstPushLandsBelowSpInit :
    State.ResetState State.reset ∧ (6 : Byte).toNat = (6 : RegIndex).val ∧ (6 : RegIndex) ≠ 7 :=
  ⟨reset_is_ResetState, by decide⟩

/-- Both clauses of LDI, PRN, INC and DEC: 7 is the last register, 8 the first byte that is none. -/
theorem witness_one_operand_clauses : (7 : Byte).toNat = (7 : RegIndex).val ∧ 8 ≤ (8 : Byte).toNat := by decide

theorem witness_LdiLoadsImmediate : (7 : Byte).toNat = (7 : RegIndex).val ∧ 8 ≤ (8 : Byte).toNat := witness_one_operand_clauses

theorem witness_PrnEmitsRegister : (7 : Byte).toNat = (7 : RegIndex).val ∧ 8 ≤ (8 : Byte).toNat := witness_one_operand_clauses

theorem witness_IncAddsOneModulo256 : (7 : Byte).toNat = (7 : RegIndex).val ∧ 8 ≤ (8 : Byte).toNat := witness_one_operand_clauses

theorem witness_DecSubtractsOneModulo256 : (7 : Byte).toNat = (7 : RegIndex).val ∧ 8 ≤ (8 : Byte).toNat :=
  witness_one_operand_clauses

/-- The three clauses of ADD, MUL and AND: both registers (the same one), operand A bad, operand B alone bad. -/
theorem witness_two_operand_clauses :
    ((7 : Byte).toNat = (7 : RegIndex).val ∧ (7 : Byte).toNat = (7 : RegIndex).val) ∧ 8 ≤ (8 : Byte).toNat ∧
    ((7 : Byte).toNat < 8 ∧ 8 ≤ (8 : Byte).toNat) := by decide

theorem witness_AddWritesSumModulo256 : (7 : Byte).toNat = (7 : RegIndex).val ∧ 8 ≤ (8 : Byte).toNat ∧ (7 : Byte).toNat < 8 := by
  decide

theorem witness_MulWritesProductModulo256 : (0 : Byte).toNat = (0 : RegIndex).val ∧ 8 ≤ (255 : Byte).toNat ∧ (0 : Byte).toNat < 8 := by
  decide

theorem witness_AndWritesBitwiseAnd : (7 : Byte).toNat = (7 : RegIndex).val ∧ 8 ≤ (8 : Byte).toNat ∧ (7 : Byte).toNat < 8 := by
  decide

/-- The AdvancesBy clause: a state whose `ir` holds the opcode. -/
theorem witness_AdvancesBy_clause : (State.reset.setIr 0x99).ir = 0x99 := by decide

theorem witness_PushDecrementsThenWrites :
    (progAt 0 [0x4D, 7]).mem.wf = true ∧ (7 : Byte).toNat = (7 : RegIndex).val ∧ (6 : Byte).toNat = (6 : RegIndex).val ∧
    8 ≤ (8 : Byte).toNat := by decide

theorem witness_PopReadsThenIncrements :
    ((6 : Byte).toNat = (6 : RegIndex).val ∧ (6 : RegIndex) ≠ 7) ∧ (7 : Byte).toNat = (7 : RegIndex).val ∧
    8 ≤ (8 : Byte).toNat := by decide

theorem witness_IncAndDecRoundTrip : (7 : Byte).toNat < 8 := by decide

theorem witness_PushThenPopCopies :
    State.reset.mem.wf = true ∧ (6 : Byte).toNat = (6 : RegIndex).val ∧ (0 : Byte).toNat = (0 : RegIndex).val ∧
    (6 : RegIndex) ≠ 7 ∧ (0 : RegIndex) ≠ 7 := by decide

theorem witness_StackReversesOrder :
    State.reset.mem.wf = true ∧ (0 : Byte).toNat = (0 : RegIndex).val ∧ (1 : Byte).toNat = (1 : RegIndex).val ∧
    (0 : RegIndex) ≠ 7 ∧ (1 : RegIndex) ≠ 7 ∧ (0 : RegIndex) ≠ 1 := by decide

theorem witness_StepRunsDecodedInstruction :
    (progAt 254 [0x99, 3, 4]).Executing ∧
    decodeBytes Config.hw ((progAt 254 [0x99, 3, 4]).byteAt 254) ((progAt 254 [0x99, 3, 4]).byteAt 255)
      ((progAt 254 [0x99, 3, 4]).byteAt 0) = .ok (.ldi 3 4) := by decide

theorem witness_UnassignedOpcodeHaltsInPlace :
    Config.hw.memSize = 256 ∧ (progAt 3 [0xFF]).Executing ∧ lookup Config.hw ((progAt 3 [0xFF]).byteAt 3) = none := by decide

/-- One state for each way the latch's value is decided: a miss, a bad A, a bad B, none. -/
theorem witness_FaultPriorityInAStep :
    ((progAt 0 [0xFF, 9, 9]).Executing ∧ (progAt 0 [0xFF, 9, 9]).Fetches 0xFF 9 9) ∧
    ((progAt 0 [0xA8, 8, 9]).Executing ∧ (progAt 0 [0xA8, 8, 9]).Fetches 0xA8 8 9) ∧
    ((progAt 0 [0xA8, 7, 8]).Executing ∧ (progAt 0 [0xA8, 7, 8]).Fetches 0xA8 7 8) ∧
    ((progAt 0 [0x43, 0, 9]).Executing ∧ (progAt 0 [0x43, 0, 9]).Fetches 0x43 0 9) := by
  unfold State.Fetches; decide

theorem witness_FaultIsPrecise :
    (progAt 0 [0x99, 8, 1]).Executing ∧ step (progAt 0 [0x99, 8, 1]) = .next (tick Config.hw (progAt 0 [0x99, 8, 1])) ∧
    (tick Config.hw (progAt 0 [0x99, 8, 1])).fault ≠ none := ⟨by decide, step_eq_tick _, by decide⟩

theorem witness_EveryStartedTickWritesIr : State.reset.Executing := by decide

theorem witness_StoppedMachineFreezes :
    State.reset.halt.run = .halted ∧ (State.reset.raise (.regIndex 8)).fault ≠ none := by decide

/-- Both branches: a dispatched instruction, a miss. -/
theorem witness_PcMovesOnlyByDeclaredLength :
    (step (progAt 0 [0x01]) = .next (tick Config.hw (progAt 0 [0x01])) ∧
      lookup Config.hw ((progAt 0 [0x01]).byteAt 0) ≠ none) ∧
    (step (progAt 0 [0xFF]) = .next (tick Config.hw (progAt 0 [0xFF])) ∧
      lookup Config.hw ((progAt 0 [0xFF]).byteAt 0) = none) := ⟨⟨step_eq_tick _, by decide⟩, step_eq_tick _, by decide⟩

/-- A halted machine; a HLT; a miss. -/
theorem witness_HaltsInExactlyTwoWays :
    (step State.reset.halt = .next (tick Config.hw State.reset.halt) ∧ State.reset.halt.run = .halted) ∧
    (step (progAt 0 [0x01]) = .next (tick Config.hw (progAt 0 [0x01])) ∧ (progAt 0 [0x01]).run = .running ∧
      (tick Config.hw (progAt 0 [0x01])).run = .halted) ∧
    (step (progAt 0 [0xFF]) = .next (tick Config.hw (progAt 0 [0xFF])) ∧ (progAt 0 [0xFF]).run = .running ∧
      (tick Config.hw (progAt 0 [0xFF])).run = .halted) :=
  ⟨⟨step_eq_tick _, rfl⟩, ⟨step_eq_tick _, by decide⟩, step_eq_tick _, by decide⟩

theorem witness_MemoryChangesOnlyByPush :
    step (progAt 0 [0x4C, 0]) = .next (tick Config.hw (progAt 0 [0x4C, 0])) ∧ (progAt 0 [0x4C, 0]).byteAt 0 ≠ 0x4D :=
  ⟨step_eq_tick _, by decide⟩

/-- A PRN of the last register, and a PRN of no register. -/
theorem witness_OutputGrowsOnlyByPrn :
    (step (progAt 0 [0x43, 7]) = .next (tick Config.hw (progAt 0 [0x43, 7])) ∧ (progAt 0 [0x43, 7]).Executing ∧
      (progAt 0 [0x43, 7]).byteAt 0 = 0x43 ∧ ((progAt 0 [0x43, 7]).byteAt 1).toNat = (7 : RegIndex).val) ∧
    (step (progAt 0 [0x43, 8]) = .next (tick Config.hw (progAt 0 [0x43, 8])) ∧
      ¬ ((progAt 0 [0x43, 8]).Executing ∧ (progAt 0 [0x43, 8]).byteAt 0 = 0x43 ∧
        ((progAt 0 [0x43, 8]).byteAt 1).toNat < 8)) :=
  ⟨⟨step_eq_tick _, by decide⟩, step_eq_tick _, by decide⟩

theorem witness_RegistersWrittenFollowTable : exec .nop State.reset = .next (State.reset.advance Config.hw) := rfl

/-- A register outside both columns, and one that is written without being read. -/
theorem witness_RegistersReadFollowTable :
    (exec .nop State.reset = .next (State.reset.advance Config.hw) ∧ (0 : RegIndex) ∉ Instr.nop.reads Config.hw ∧
      (0 : RegIndex) ∉ Instr.nop.writes Config.hw) ∧
    (exec (.ldi 0 5) State.reset = .next (perform Config.hw (.ldi 0 5) State.reset) ∧
      (0 : RegIndex) ∉ (Instr.ldi 0 5).reads Config.hw ∧ (0 : RegIndex) ∈ (Instr.ldi 0 5).writes Config.hw) :=
  ⟨⟨rfl, by decide⟩, rfl, by decide⟩

theorem witness_PcAndIrAreUnobservable : exec .hlt State.reset = .next (State.reset.halt.advance Config.hw) := rfl

/-- NOP and the byte after it; PUSH and the second byte after it, with the stack elsewhere. -/
theorem witness_UnusedOperandBytesHaveNoInfluence :
    ((progAt 0 [0x00, 9]).mem.wf = true ∧ step (progAt 0 [0x00, 9]) = .next (tick Config.hw (progAt 0 [0x00, 9])) ∧
      (∀ m, lookup Config.hw ((progAt 0 [0x00, 9]).byteAt 0) = some m → m.arity = 0)) ∧
    ((progAt 0 [0x4D, 1, 9]).mem.wf = true ∧
      step (progAt 0 [0x4D, 1, 9]) = .next (tick Config.hw (progAt 0 [0x4D, 1, 9])) ∧
      (∀ m, lookup Config.hw ((progAt 0 [0x4D, 1, 9]).byteAt 0) = some m → m.arity ≤ 1) ∧
      (2 : Addr) ≠ pushAddr Config.hw (progAt 0 [0x4D, 1, 9])) := by
  have h0 : lookup Config.hw ((progAt 0 [0x00, 9]).byteAt 0) = some .nop := by decide
  have h1 : lookup Config.hw ((progAt 0 [0x4D, 1, 9]).byteAt 0) = some .push := by decide
  refine ⟨⟨by decide, step_eq_tick _, fun m h => ?_⟩, by decide, step_eq_tick _, fun m h => ?_, by decide⟩
  · rw [h0] at h; cases h; rfl
  · rw [h1] at h; cases h; decide

/-- The pushed byte lands on the very next opcode. -/
theorem witness_NextTickFetchesWhatPushWrote :
    ((progAt 8 [0x4D, 6]).setReg 7 11).mem.wf = true ∧ ((progAt 8 [0x4D, 6]).setReg 7 11).Executing ∧
    ((progAt 8 [0x4D, 6]).setReg 7 11).byteAt 8 = 0x4D ∧
    (((progAt 8 [0x4D, 6]).setReg 7 11).byteAt 9).toNat = (6 : RegIndex).val ∧
    ((progAt 8 [0x4D, 6]).setReg 7 11).pc + 2 = ((progAt 8 [0x4D, 6]).setReg 7 11).reg 7 - 1 := by decide

/-- A PUSH whose next write lands right above a program of two bytes. -/
def pushAboveProgram : State := (progAt 0 [0x4D, 1]).setReg 7 3

theorem witness_StepKeepsProgramBelowStack :
    pushAboveProgram.Holds [0x4D, 1] ∧ ([0x4D, 1] : List Byte).length ≤ (pushAddr Config.hw pushAboveProgram).toNat ∧
    step pushAboveProgram = .next (tick Config.hw pushAboveProgram) := by
  refine ⟨⟨by decide, fun k hk => ?_⟩, by decide, step_eq_tick _⟩
  match k, hk with
  | 0, _ => decide
  | 1, _ => decide

theorem witness_StepKeepsInvariant :
    State.reset.Inv ∧ step State.reset = .next (tick Config.hw State.reset) :=
  ⟨⟨by decide, fun c h => by cases h⟩, step_eq_tick _⟩

/-- The invariant also holds of a faulted machine, so its second part is not empty. -/
theorem witness_Inv_of_a_faulted_machine : (State.reset.raise (.regIndex 8)).Inv :=
  ⟨by decide, fun c h => ⟨rfl, 8, by decide, by cases h; rfl⟩⟩

/-- A memory of four bytes. -/
def fourBytes : Config := { Config.hw with memSize := 4 }

/-- A stack instruction at address 1 of it, with the stack pointer given. -/
def stackAtOne (op sp : Byte) : State := (progAt 1 [op, 7]).setReg 7 sp

/-- Each clause at the edge of a memory of four bytes. -/
theorem witness_SmallMemoryRangeFaults :
    ((progAt 4 [0]).Executing ∧ fourBytes.memSize ≤ (progAt 4 [0]).pc.toNat) ∧
    ((progAt 3 [0]).Executing ∧ (progAt 3 [0]).pc.toNat < fourBytes.memSize ∧
      fourBytes.memSize ≤ (fetchAddr fourBytes (progAt 3 [0]).pc 1).toNat) ∧
    ((progAt 2 [0]).Executing ∧ (progAt 2 [0]).pc.toNat < fourBytes.memSize ∧
      (fetchAddr fourBytes (progAt 2 [0]).pc 1).toNat < fourBytes.memSize ∧
      fourBytes.memSize ≤ (fetchAddr fourBytes (progAt 2 [0]).pc 2).toNat) ∧
    ((stackAtOne 0x4D 5).Executing ∧ (stackAtOne 0x4D 5).pc.toNat < fourBytes.memSize ∧
      (fetchAddr fourBytes (stackAtOne 0x4D 5).pc 1).toNat < fourBytes.memSize ∧
      (fetchAddr fourBytes (stackAtOne 0x4D 5).pc 2).toNat < fourBytes.memSize ∧
      ((stackAtOne 0x4D 5).byteAt (fetchAddr fourBytes (stackAtOne 0x4D 5).pc 1)).toNat < 8 ∧
      lookup fourBytes ((stackAtOne 0x4D 5).byteAt (stackAtOne 0x4D 5).pc) = some .push ∧
      fourBytes.memSize ≤ (pushAddr fourBytes (stackAtOne 0x4D 5)).toNat) ∧
    ((stackAtOne 0x4C 4).Executing ∧ (stackAtOne 0x4C 4).pc.toNat < fourBytes.memSize ∧
      (fetchAddr fourBytes (stackAtOne 0x4C 4).pc 1).toNat < fourBytes.memSize ∧
      (fetchAddr fourBytes (stackAtOne 0x4C 4).pc 2).toNat < fourBytes.memSize ∧
      ((stackAtOne 0x4C 4).byteAt (fetchAddr fourBytes (stackAtOne 0x4C 4).pc 1)).toNat < 8 ∧
      lookup fourBytes ((stackAtOne 0x4C 4).byteAt (stackAtOne 0x4C 4).pc) = some .pop ∧
      fourBytes.memSize ≤ (popAddr fourBytes (stackAtOne 0x4C 4)).toNat) := by decide

theorem witness_OperandFetchesWrapAtAddrWidth :
    fourBits.legal = true ∧ acrossFourBits.Executing ∧
    (15 : Addr).toNat = (acrossFourBits.pc.toNat + 1) % 2 ^ fourBits.addrWidth ∧
    (0 : Addr).toNat = (acrossFourBits.pc.toNat + 2) % 2 ^ fourBits.addrWidth ∧
    acrossFourBits.pc.toNat < fourBits.memSize ∧ (15 : Addr).toNat < fourBits.memSize ∧ (0 : Addr).toNat < fourBits.memSize ∧
    decodeBytes fourBits (acrossFourBits.byteAt acrossFourBits.pc) (acrossFourBits.byteAt 15) (acrossFourBits.byteAt 0) =
      .ok (.ldi 3 42) := by decide

/-- Both clauses, where the PC wraps. -/
theorem witness_PcWrapsAtPcWidth :
    fourBits.legal = true ∧ acrossFourBits.Executing ∧ lookup fourBits (acrossFourBits.byteAt acrossFourBits.pc) ≠ none ∧
    (tick fourBits acrossFourBits).fault = none ∧ acrossFourBits.pc.toNat < 2 ^ fourBits.pcWidth := by decide

theorem witness_IncDecSwitchRemovesTwoEntries :
    ({ Config.hw with incDecDispatched := false } : Config).legal = true ∧
    ({ Config.hw with incDecDispatched := false } : Config).incDecDispatched = false ∧
    Mnemonic.nop ≠ .inc ∧ Mnemonic.nop ≠ .dec := by decide

theorem witness_DrivingComposes : State.reset.halt.run = .halted := by decide

/-! ## The host's session -/

/-- Scenario of one instruction: HLT poked at address 0, one tick, the output read. -/
def haltSession : List HostEvent := [.poke 0 0x01, .tickRequest, .tickDone, .readOutput]

/-- 60_exceptions.md R228: what is assumed never to happen has no move. -/
theorem test_session_refuses_a_poke_after_the_first_tick :
    (session Config.hw .loading State.reset [.tickRequest, .tickDone, .poke 0 1]).isSome = false ∧
    (session Config.hw .loading State.reset [.tickRequest, .tickRequest]).isSome = false ∧
    (session Config.hw .loading State.reset [.tickRequest, .inspect]).isSome = false ∧
    (session Config.hw .loading State.reset [.writeReg 0 1]).isSome = false ∧
    (session Config.hw .loading State.reset [.writeMem 0 1]).isSome = false := by decide

/-- 20_memory.md R52: a poke beyond a memory of four bytes faults, and a later one finds the machine frozen. -/
theorem test_poke_out_of_range :
    (State.reset.poke fourBytes 4 9).fault = some (.memRange 4) ∧ (State.reset.poke fourBytes 4 9).byteAt 4 = 0 ∧
    ((State.reset.poke fourBytes 4 9).poke fourBytes 0 9).byteAt 0 = 0 ∧
    (State.reset.poke fourBytes 3 9).byteAt 3 = 9 := by decide

/-- The three clauses, at the edge of a memory of four bytes. -/
theorem witness_PokeIsOneMemoryWrite :
    (State.reset.Executing ∧ (3 : Addr).toNat < fourBytes.memSize) ∧
    (State.reset.Executing ∧ fourBytes.memSize ≤ (4 : Addr).toNat) ∧ State.reset.halt.run = .halted := by decide

/-- The session ends between ticks, HALTED past the HLT. -/
theorem witness_SessionIsLoadThenDrive :
    session Config.hw .loading State.reset haltSession =
      some (.between, tick Config.hw (State.reset.poke Config.hw 0 0x01)) := rfl

theorem witness_SessionKeepsInvariant :
    State.reset.Inv ∧ session Config.hw .loading State.reset haltSession =
      some (.between, tick Config.hw (State.reset.poke Config.hw 0 0x01)) :=
  ⟨witness_StepKeepsInvariant.1, witness_SessionIsLoadThenDrive⟩

/-- The premises of a run hold together of the one-instruction scenario. -/
theorem haltSession_premises : RunPremises Config.hw [0x01] haltSession State.reset where
  reset := ⟨rfl, rfl⟩
  loaded := by
    refine ⟨fun pre post h => ?_, by decide, by decide, fun k hk => ?_⟩
    · rcases pre with _ | ⟨e0, _ | ⟨e1, _ | ⟨e2, _ | ⟨e3, _ | ⟨e4, pre⟩⟩⟩⟩⟩ <;> simp [haltSession] at h
      obtain ⟨-, rfl⟩ := h
      rfl
    · match k, hk with
      | 0, _ => decide
  quiet := by
    refine ⟨by decide, fun pre post p t h ht => ?_⟩
    rcases pre with _ | ⟨e0, _ | ⟨e1, _ | ⟨e2, _ | ⟨e3, _ | ⟨e4, pre⟩⟩⟩⟩⟩ <;> simp [haltSession] at h
    obtain ⟨rfl, -⟩ := h
    cases ht
    decide
  config := rfl

theorem witness_RunStartsAtFirstProgramByte :
    RunPremises Config.hw [0x01] haltSession State.reset ∧ ticksOf haltSession = 1 ∧
    session Config.hw .loading State.reset haltSession =
      some (.between, tick Config.hw (State.reset.poke Config.hw 0 0x01)) :=
  ⟨haltSession_premises, by decide, witness_SessionIsLoadThenDrive⟩

end Sys2Proof.Tests
end

section
/-! The memory port and the host's poke (20_memory.md R51, R67): both come down to `State.store`, whose frame is stated here
once in the terms the obligations use. -/

namespace Sys2Proof.Machine

/-! ## The frame of a store -/

theorem State.store_memSameExcept (s : State) (a : Addr) (v : Byte) : MemSameExcept a s (s.store a v) :=
  fun _ hb => Memory.read_write_other s.mem v hb

theorem State.store_regsSameExcept_nil (s : State) (a : Addr) (v : Byte) : RegsSameExcept [] s (s.store a v) :=
  fun r _ => State.store_reg s a v r

theorem State.store_controlSame (s : State) (a : Addr) (v : Byte) : ControlSame s (s.store a v) :=
  ⟨State.store_ir s a v, State.store_run s a v, State.store_fault s a v, State.store_out s a v⟩

/-- A store writes its one byte and changes nothing else (R51); only the byte's own clause needs the canonical form. -/
theorem State.store_writesOneByte {s : State} (hm : s.mem.wf = true) (a : Addr) (v : Byte) :
    (s.store a v).mem.read a.toNat = v ∧ MemSameExcept a s (s.store a v) ∧
    RegsSameExcept [] s (s.store a v) ∧ ControlSame s (s.store a v) ∧ (s.store a v).pc = s.pc :=
  ⟨State.store_byteAt_same hm a v, s.store_memSameExcept a v, s.store_regsSameExcept_nil a v,
    s.store_controlSame a v, s.store_pc a v⟩

/-- A poke of this hardware, on a machine that executes, is a store (R67). -/
theorem State.Executing.poke_hw {s : State} (hs : s.Executing) (a : Addr) (v : Byte) :
    s.poke Config.hw a v = s.store a v :=
  State.poke_hw ((State.stopped_eq_false_iff s).2 hs) a v

/-! ## The obligations -/

/-- Settles O11: at MEM_SIZE = 256 the port never refuses, and its write is `State.store`. -/
theorem memoryPortReadsLatestWrite : Obligations.MemoryPortReadsLatestWrite := by
  intro s a v hm
  exact ⟨memRead_hw a s, s.store a v, memWrite_hw a v s, State.store_wf hm a v,
    State.store_writesOneByte hm a v⟩

/-- Settles O12: on a machine that executes, a poke is `State.store`. -/
theorem pokeWritesOneByte : Obligations.PokeWritesOneByte := by
  intro s a v hm hs
  rw [State.Executing.poke_hw hs]
  exact State.store_writesOneByte hm a v

end Sys2Proof.Machine
end

section
/-! The operand count of an opcode byte (30_encoding.md R82): its bits 7:6, and why no byte of count 3 has a handler. -/

namespace Sys2Proof

/-- The operand count is the number bits 7:6 form (R82). -/
theorem operandCount_toNat_eq_extractLsb' (b : Byte) : (operandCount b).toNat = (b.extractLsb' 6 2).toNat := by
  have hb := b.isLt
  rw [operandCount_toNat, BitVec.extractLsb'_toNat, Nat.shiftRight_eq_div_pow]
  omega

theorem operandCount_toNat_eq_three_iff (b : Byte) : (operandCount b).toNat = 3 ↔ 0xC0 ≤ b.toNat := by
  have hb := b.isLt
  rw [operandCount_toNat]
  omega

/-- No instruction has three operand bytes (the table of R89). -/
theorem Mnemonic.arity_le_two (m : Mnemonic) : m.arity ≤ 2 := by cases m <;> decide

/-- A byte of count 3 misses the table of every legal assignment: its count would be a mnemonic's arity (constraint 2 of
R87). -/
theorem lookup_eq_none_of_operandCount_eq_three {cfg : Config} (h : cfg.opc.legal = true) {op : Byte}
    (hn : (operandCount op).toNat = 3) : lookup cfg op = none := by
  rw [lookup_none]
  rintro m - rfl
  have harity := Opc.count_eq_arity h m
  have hle := m.arity_le_two
  omega

/-- Settles O1: the count is read off bits 7:6, and a byte of count 3 would need a mnemonic of three operands. -/
theorem operandCountIsTopTwoBits : Obligations.OperandCountIsTopTwoBits := by
  intro b
  refine ⟨operandCount_toNat_eq_extractLsb' b, operandCount_toNat_eq_three_iff b, fun hb => ?_, fun c hc => ?_⟩
  · exact lookup_eq_none_of_operandCount_eq_three (Config.legal_opc Config.hw_legal)
      ((operandCount_toNat_eq_three_iff b).2 hb)
  · apply BitVec.eq_of_toNat_eq
    rw [operandCount_toNat_eq_extractLsb', operandCount_toNat_eq_extractLsb', hc]

end Sys2Proof
end

section
/-! The miss case of dispatch (40_cycle_and_dispatch.md R114): the whole tick on a byte with no handler, as one state. -/

namespace Sys2Proof.Machine

/-- The decode's answer on a miss rests on the opcode byte alone, so the two operand bytes are fetched but never looked at. -/
theorem startTick_of_lookup_none {cfg : Config} (hm : 256 ≤ cfg.memSize) {s : State} (hs : s.Executing)
    (hl : lookup cfg (s.byteAt s.pc) = none) : startTick cfg s = .done (s.setIr (s.byteAt s.pc)).halt := by
  rw [startTick_full hm ((State.stopped_eq_false_iff s).2 hs), decodeBytes_error.2 ⟨hl, rfl⟩]

theorem tick_of_lookup_none {cfg : Config} (hm : 256 ≤ cfg.memSize) {s : State} (hs : s.Executing)
    (hl : lookup cfg (s.byteAt s.pc) = none) : tick cfg s = (s.setIr (s.byteAt s.pc)).halt := by
  rw [tick, startTick_of_lookup_none hm hs hl]

/-- Settles O31: the tick is `ir` written and the machine halted; each clause reads that state, whose latch is still the empty
one of a machine that executes. -/
theorem unassignedOpcodeHaltsInPlace : Obligations.UnassignedOpcodeHaltsInPlace := by
  intro cfg s hm hs hl
  have htick := tick_of_lookup_none hm.ge hs hl
  have hstep : cfg = Config.hw → step s = .next (s.setIr (s.byteAt s.pc)).halt := by
    rintro rfl
    rw [step_eq_tick, htick]
  have hfault : (s.setIr (s.byteAt s.pc)).halt.fault = none := by simpa using hs.2
  rw [htick]
  exact ⟨by simp, by simp, by simp, hfault, by simp, fun r _ => by simp, fun a => by simp, hstep⟩

end Sys2Proof.Machine
end

section
/-! HLT and NOP (41_halt_nop.md R140, R141), over the PC advance that ends every dispatched instruction
(40_cycle_and_dispatch.md R116): its distance and its frame, stated here once in the terms the obligations use. -/

namespace Sys2Proof.Machine

/-! ## The PC advance -/

/-- Where `ir` holds a mnemonic's opcode byte, the advance after any effect `u` that leaves `pc` and `ir` alone is the
instruction's length, because the declared count is the arity (constraint 2 of R87). -/
theorem State.advance_advancesBy (m : Mnemonic) {s u : State} (hpc : u.pc = s.pc) (hir : u.ir = s.ir) :
    AdvancesBy (Config.hw.opc.byte m) (m.arity + 1) s (u.advance Config.hw) := by
  have hadvance : (u.advance Config.hw).pc = s.pc + operandCount s.ir + 1 := by simp [hpc, hir]
  refine ⟨hadvance, fun hop => ?_⟩
  have hcount : (operandCount s.ir).toNat = m.arity := by
    rw [hop]
    exact Opc.count_eq_arity (Config.legal_opc Config.hw_legal) m
  rw [hadvance, BitVec.toNat_add, BitVec.toNat_add, hcount, Nat.mod_add_mod, Nat.add_assoc]
  rfl

theorem State.advance_regsSameExcept_nil (cfg : Config) (s : State) : RegsSameExcept [] s (s.advance cfg) :=
  fun r _ => State.advance_reg cfg s r

theorem State.advance_controlSame (cfg : Config) (s : State) : ControlSame s (s.advance cfg) :=
  ⟨State.advance_ir cfg s, State.advance_run cfg s, State.advance_fault cfg s, State.advance_out cfg s⟩

theorem State.advance_memSame (cfg : Config) (s : State) : MemSame s (s.advance cfg) :=
  fun _ => congrArg (Memory.read · _) (State.advance_mem cfg s)

/-! ## The tick after a halt -/

theorem State.stopped_of_halted {s : State} (h : s.run = .halted) : s.stopped = true :=
  (State.stopped_iff s).2 (.inl h)

/-- A HALTED machine's step leaves it as it is (R120). -/
theorem step_of_halted {s : State} (h : s.run = .halted) : step s = .next s := by
  rw [step_eq_tick, tick_stopped Config.hw (State.stopped_of_halted h)]

/-! ## The obligations -/

/-- Settles O16: NOP is the PC advance and nothing else. -/
theorem nopOnlyAdvances : Obligations.NopOnlyAdvances := fun s =>
  ⟨s.advance Config.hw, exec_nop s, State.advance_advancesBy .nop rfl rfl, s.advance_regsSameExcept_nil Config.hw,
    s.advance_controlSame Config.hw, s.advance_memSame Config.hw⟩

/-- Settles O17: HLT is the halt and then the PC advance; the halt touches only `run`, which then stops every later tick. -/
theorem hltHaltsPastItself : Obligations.HltHaltsPastItself := by
  intro s
  have hrun : (s.halt.advance Config.hw).run = .halted := by simp
  have hpc := State.advance_advancesBy .hlt (State.halt_pc s) (State.halt_ir s)
  exact ⟨s.halt.advance Config.hw, exec_hlt s, hrun, hpc, fun r _ => by simp, by simp, by simp, by simp,
    fun a => by simp, step_of_halted hrun⟩

end Sys2Proof.Machine
end

section
/-! LDI (42_ldi.md R150), over the two endings an instruction with a destination register has: the register written and the PC
advanced, or the fault of a bad operand. Both are stated here once in the terms the obligations use. -/

namespace Sys2Proof.Machine

/-! ## A register write and the PC advance -/

theorem State.setReg_regsSameExcept (s : State) (r : RegIndex) (v : Byte) : RegsSameExcept [r] s (s.setReg r v) :=
  fun _ hq => State.setReg_reg_other s v (List.ne_of_not_mem_cons hq)

/-- The frame of a handler that writes one register and advances: neither part touches what the other writes. -/
theorem State.setReg_advance_frame (m : Mnemonic) (s : State) (r : RegIndex) (v : Byte) :
    AdvancesBy (Config.hw.opc.byte m) (m.arity + 1) s ((s.setReg r v).advance Config.hw) ∧
    RegsSameExcept [r] s ((s.setReg r v).advance Config.hw) ∧
    ControlSame s ((s.setReg r v).advance Config.hw) ∧ MemSame s ((s.setReg r v).advance Config.hw) := by
  refine ⟨State.advance_advancesBy m (State.setReg_pc s r v) (State.setReg_ir s r v), fun q hq => ?_,
    State.advance_controlSame Config.hw (s.setReg r v), State.advance_memSame Config.hw (s.setReg r v)⟩
  rw [State.advance_reg]
  exact s.setReg_regsSameExcept r v q hq

/-! ## The fault of a bad operand -/

theorem exec_faultsOn {i : Instr} {c : Byte} (h : i.badOperand = some c) (s : State) :
    ∃ t, exec i s = .next t ∧ FaultsOn c s t :=
  ⟨s.raise (.regIndex c), exec_bad h s, rfl⟩

theorem badOperand_ldi {a : Byte} (h : 8 ≤ a.toNat) (v : Byte) : (Instr.ldi a v).badOperand = some a := by
  have hbad : regOk a = false := regOk_eq_false_iff.2 h
  simp [Instr.badOperand, hbad]

/-! ## The obligation -/

/-- Settles O18: LDI is the register write and then the PC advance; operand A above 7 is its one bad operand. -/
theorem ldiLoadsImmediate : Obligations.LdiLoadsImmediate := by
  intro a v s
  refine ⟨fun r hr => ?_, fun ha => exec_faultsOn (badOperand_ldi ha v) s⟩
  have hvalue : ((s.setReg r v).advance Config.hw).reg r = v := by simp
  exact ⟨(s.setReg r v).advance Config.hw, exec_ldi hr v s, hvalue, s.setReg_advance_frame .ldi r v⟩

end Sys2Proof.Machine
end

section
/-! PRN (43_prn.md R160): the register's byte is emitted and the PC advances, or operand A is bad and nothing is emitted. -/

namespace Sys2Proof.Machine

theorem badOperand_prn {a : Byte} (h : 8 ≤ a.toNat) : (Instr.prn a).badOperand = some a := by
  have hbad : regOk a = false := regOk_eq_false_iff.2 h
  simp [Instr.badOperand, hbad]

/-- Settles O19: PRN is the emission and then the PC advance, and the emission touches only `out`; operand A above 7 is its
one bad operand. -/
theorem prnEmitsRegister : Obligations.PrnEmitsRegister := by
  intro a s
  refine ⟨fun r hr => ?_, fun ha => exec_faultsOn (badOperand_prn ha) s⟩
  have hout : ((s.emit (s.reg r)).advance Config.hw).out = s.out ++ [s.reg r] := by simp
  have hpc := State.advance_advancesBy .prn (State.emit_pc s (s.reg r)) (State.emit_ir s (s.reg r))
  exact ⟨(s.emit (s.reg r)).advance Config.hw, exec_prn hr s, hout, hpc, fun q _ => by simp, by simp, by simp, by simp,
    fun b => by simp⟩

end Sys2Proof.Machine
end

section
/-! Decoding and encoding (30_encoding.md sections 1 to 4): the decoder on a list, read once as an equivalence, and both round
trips from it. -/

namespace Sys2Proof

/-! ## The dispatch lookup -/

/-- Under a legal assignment the lookup is equality of the whole byte (R94): a hit names its byte, and no two mnemonics share
one. -/
theorem lookup_eq_some_iff {cfg : Config} (h : cfg.opc.legal = true) {op : Byte} {m : Mnemonic} :
    lookup cfg op = some m ↔ cfg.dispatches m = true ∧ cfg.opc.byte m = op := by
  refine ⟨lookup_some, ?_⟩
  rintro ⟨hd, rfl⟩
  exact lookup_byte h hd

theorem Config.opc_hw_legal : Config.hw.opc.legal = true := Config.legal_opc Config.hw_legal

/-- On this hardware every mnemonic is dispatched, so a hit is the mnemonic's byte. -/
theorem lookup_hw_eq_some_iff {op : Byte} {m : Mnemonic} :
    lookup Config.hw op = some m ↔ op = Config.hw.opc.byte m := by
  simp [lookup_eq_some_iff Config.opc_hw_legal, eq_comm]

/-! ## The decoder on a list of bytes -/

/-- Decoding succeeds on a hit whose declared operands are all there. -/
theorem decode_cons_eq_ok_iff {cfg : Config} {op : Byte} {bytes rest : List Byte} {i : Instr} :
    decode cfg (op :: bytes) = .ok (i, rest) ↔
      ∃ m, lookup cfg op = some m ∧ assemble m (bytes.getD 0 0) (bytes.getD 1 0) = i ∧
        (operandCount op).toNat ≤ bytes.length ∧ bytes.drop (operandCount op).toNat = rest := by
  cases hl : lookup cfg op with
  | none => simp [decode, decodeBytes, hl]
  | some m =>
    by_cases hn : bytes.length < (operandCount op).toNat
    · simp [decode, decodeBytes, hl, hn]
    · simp [decode, decodeBytes, hl, hn, Nat.not_lt.1 hn]

/-- A handler takes its operand bytes from the front of the list and ignores what follows. -/
theorem assemble_operands_append (i : Instr) (rest : List Byte) :
    assemble i.mnemonic ((i.operands ++ rest).getD 0 0) ((i.operands ++ rest).getD 1 0) = i := by
  cases i <;> rfl

/-- The bytes handed to a handler are the front of the list, as far as it has any. -/
theorem take_pair_getD {n : Nat} {bytes : List Byte} (h2 : n ≤ 2) (hlen : n ≤ bytes.length) :
    [bytes.getD 0 0, bytes.getD 1 0].take n = bytes.take n := by
  match n, bytes, hlen with
  | 0, _, _ => simp
  | 1, _ :: _, _ => simp
  | 2, _ :: _ :: _, _ => simp

/-- The bytes of what was decoded are the bytes it was decoded from, as many as its arity. -/
theorem assemble_operands_take (m : Mnemonic) {bytes : List Byte} (h : m.arity ≤ bytes.length) :
    (assemble m (bytes.getD 0 0) (bytes.getD 1 0)).operands = bytes.take m.arity := by
  rw [assemble_operands_eq, take_pair_getD m.arity_le_two h]

/-! ## The obligations -/

/-- Settles O5: the opcode byte is looked up to the mnemonic, whose declared count is the number of operand bytes encoded. -/
theorem decodeInvertsEncode : Obligations.DecodeInvertsEncode := by
  intro cfg i rest h hd
  have hopc := Config.legal_opc h
  have hcount : (operandCount (opcodeOf cfg i)).toNat = i.operands.length := by
    rw [Instr.operands_length]
    exact Opc.count_eq_arity hopc i.mnemonic
  refine decode_cons_eq_ok_iff.2 ⟨i.mnemonic, lookup_byte hopc hd, assemble_operands_append i rest, ?_, ?_⟩
  · rw [hcount]
    exact List.length_append ▸ Nat.le_add_right _ _
  · rw [hcount]
    exact List.drop_left

/-- Settles O6: a list that decodes has a dispatched opcode byte, then the operand bytes its arity says, then the rest. -/
theorem encodeInvertsDecode : Obligations.EncodeInvertsDecode := by
  intro cfg bytes i rest h hdec
  have hopc := Config.legal_opc h
  cases bytes with
  | nil => cases hdec
  | cons op bytes =>
    obtain ⟨m, hl, rfl, hlen, rfl⟩ := decode_cons_eq_ok_iff.1 hdec
    obtain ⟨hd, rfl⟩ := lookup_some hl
    rw [Opc.count_eq_arity hopc] at hlen ⊢
    refine ⟨by rwa [assemble_mnemonic], ?_⟩
    rw [encode, opcodeOf, assemble_mnemonic, assemble_operands_take m hlen, List.cons_append, List.take_append_drop]

/-- Settles O3: a hit names the byte, and by constraint 1 of R87 the byte names the mnemonic. -/
theorem lookupIsWholeByteEquality : Obligations.LookupIsWholeByteEquality :=
  fun _ _ _ h => lookup_eq_some_iff (Config.legal_opc h)

/-- The opcode bytes of R88, in the order of the opcode table. -/
theorem map_byte_hw :
    Mnemonic.all.map (fun m => (Config.hw.opc.byte m).toNat) =
      [0x00, 0x01, 0x43, 0x4C, 0x4D, 0x78, 0x79, 0x99, 0xA8, 0xAA, 0xB3] := by decide

/-- Settles O4: a byte of count 3 would need a mnemonic of three operands, and this hardware dispatches every mnemonic. -/
theorem unassignedBytesMissTheTable : Obligations.UnassignedBytesMissTheTable := by
  refine ⟨fun cfg op h => lookup_eq_none_of_operandCount_eq_three (Config.legal_opc h), fun op => ?_⟩
  rw [← map_byte_hw, lookup_none]
  simp [Mnemonic.mem_all, BitVec.toNat_inj]

/-- Settles O48: with the switch off INC and DEC are not dispatched, and their bytes are no other mnemonic's. -/
theorem incDecSwitchRemovesTwoEntries : Obligations.IncDecSwitchRemovesTwoEntries := by
  intro cfg h hoff
  have hopc := Config.legal_opc h
  have hmiss : ∀ k, cfg.dispatches k = false → lookup cfg (cfg.opc.byte k) = none := by
    refine fun k hk => lookup_none.2 fun m hm hb => ?_
    cases Opc.byte_injective hopc hb
    exact absurd hm (by simp [hk])
  refine ⟨hmiss .inc hoff, hmiss .dec hoff, fun m hinc hdec => lookup_byte hopc ?_⟩
  cases m with
  | inc => exact absurd rfl hinc
  | dec => exact absurd rfl hdec
  | _ => rfl

/-- Settles O2: each word is evaluated. -/
theorem specWordsDecode : Obligations.SpecWordsDecode := by
  unfold Obligations.SpecWordsDecode
  decide

end Sys2Proof
end

section
/-! Everything a handler can do (40_cycle_and_dispatch.md R115, R116), said once as a relation with one constructor per shape
of outcome; what an instruction leaves unchanged is read off it, and no later proof walks through the handlers again. -/

namespace Sys2Proof.Machine

/-! ## Register operands -/

theorem exists_reg_of_lt {b : Byte} (h : b.toNat < 8) : ∃ r : RegIndex, b.toNat = r.val := ⟨⟨b.toNat, h⟩, rfl⟩

theorem exists_reg_of_regOk {b : Byte} (h : regOk b = true) : ∃ r : RegIndex, b.toNat = r.val :=
  exists_reg_of_lt (regOk_iff.1 h)

theorem regOk_of_reg {b : Byte} {r : RegIndex} (h : b.toNat = r.val) : regOk b = true :=
  regOk_iff.2 (h ▸ r.isLt)

theorem namedRegs_of_reg {b : Byte} {r : RegIndex} (h : b.toNat = r.val) : namedRegs [b] = [r] := by
  simp [namedRegs, regOperand_some.2 h]

/-- An instruction either has a bad operand or is well formed. -/
theorem badOperand_or_wellFormed (i : Instr) : (∃ c, i.badOperand = some c) ∨ i.wellFormed = true := by
  rw [← badOperand_none_iff]
  cases i.badOperand <;> simp

/-! ## The shapes of outcome -/

/-- The mnemonics whose handlers write the register operand A names and do nothing else: LDI and the ALU operations. -/
def writesOperandA : Mnemonic → Bool
  | .ldi | .inc | .dec | .add | .mul | .and => true
  | .nop | .hlt | .prn | .pop | .push => false

/-- What an instruction's handler can leave of `s`: the fault of a bad operand; the handler's effect and the PC advance; for
PUSH and POP also the refusal of a memory too small for the stack access (60_exceptions.md R212, R213). -/
inductive Performs (cfg : Config) (i : Instr) (s : State) : State → Prop
  | faults {c : Byte} (hbad : i.badOperand = some c) : Performs cfg i s (s.raise (.regIndex c))
  | nop (hi : i = .nop) : Performs cfg i s (s.advance cfg)
  | hlt (hi : i = .hlt) : Performs cfg i s (s.halt.advance cfg)
  | prn {a : Byte} {r : RegIndex} (hi : i = .prn a) (ha : a.toNat = r.val) :
      Performs cfg i s ((s.emit (s.reg r)).advance cfg)
  | writes {r : RegIndex} (v : Byte) (hi : writesOperandA i.mnemonic = true) (hok : i.wellFormed = true)
      (hw : i.writes cfg = [r]) : Performs cfg i s ((s.setReg r v).advance cfg)
  | push {a : Byte} {r : RegIndex} (v : Byte) (hi : i = .push a) (ha : a.toNat = r.val) :
      Performs cfg i s (((s.setReg cfg.spReg (pushAddr cfg s)).store (pushAddr cfg s) v).advance cfg)
  | pop {a : Byte} {r : RegIndex} (v w : Byte) (hi : i = .pop a) (ha : a.toNat = r.val) :
      Performs cfg i s (((s.setReg r v).setReg cfg.spReg w).advance cfg)
  | pushRefused {a : Byte} (hi : i = .push a) (hm : cfg.memSize ≤ (pushAddr cfg s).toNat) :
      Performs cfg i s ((s.setReg cfg.spReg (pushAddr cfg s)).raise (.memRange (pushAddr cfg s)))
  | popRefused {a : Byte} (hi : i = .pop a) (hm : cfg.memSize ≤ (popAddr cfg s).toNat) :
      Performs cfg i s (s.raise (.memRange (popAddr cfg s)))

theorem performs_prn (cfg : Config) {a : Byte} {r : RegIndex} (ha : a.toNat = r.val) (s : State) :
    Performs cfg (.prn a) s (perform cfg (.prn a) s) := by
  have h := Performs.prn (cfg := cfg) (s := s) rfl ha
  rwa [perform, handlePrn, withReg_reg ha]

theorem performs_ldi (cfg : Config) {a : Byte} {r : RegIndex} (ha : a.toNat = r.val) (v : Byte) (s : State) :
    Performs cfg (.ldi a v) s (perform cfg (.ldi a v) s) := by
  rw [perform, handleLdi, withReg_reg ha]
  exact .writes v rfl (regOk_of_reg ha) (namedRegs_of_reg ha)

/-- INC and DEC write the register operand A names. -/
theorem performs_alu1 (cfg : Config) (op : AluOp) {i : Instr} {a : Byte} {r : RegIndex} (ha : a.toNat = r.val) (s : State)
    (hi : writesOperandA i.mnemonic = true) (hok : i.wellFormed = true) (hw : i.writes cfg = namedRegs [a]) :
    Performs cfg i s (handleAlu1 cfg op a s) := by
  rw [handleAlu1, withReg_reg ha]
  exact .writes _ hi hok (hw.trans (namedRegs_of_reg ha))

/-- ADD, MUL and AND write the register operand A names. -/
theorem performs_alu2 (cfg : Config) (op : AluOp) {i : Instr} {a b : Byte} (ha : regOk a = true) (hb : regOk b = true)
    (s : State) (hi : writesOperandA i.mnemonic = true) (hok : i.wellFormed = true) (hw : i.writes cfg = namedRegs [a]) :
    Performs cfg i s (handleAlu2 cfg op a b s) := by
  obtain ⟨ra, ha⟩ := exists_reg_of_regOk ha
  obtain ⟨rb, hb⟩ := exists_reg_of_regOk hb
  rw [handleAlu2, withRegs_reg ha hb]
  exact .writes _ hi hok (hw.trans (namedRegs_of_reg ha))

theorem performs_push (cfg : Config) {a : Byte} {r : RegIndex} (ha : a.toNat = r.val) (s : State) :
    Performs cfg (.push a) s (perform cfg (.push a) s) := by
  rw [perform, handlePush_eq, withReg_reg ha]
  split
  · exact .push _ rfl ha
  · next h => exact .pushRefused rfl (Nat.not_lt.1 h)

theorem performs_pop (cfg : Config) {a : Byte} {r : RegIndex} (ha : a.toNat = r.val) (s : State) :
    Performs cfg (.pop a) s (perform cfg (.pop a) s) := by
  rw [perform, handlePop_eq, withReg_reg ha]
  split
  · exact .pop _ _ rfl ha
  · next h => exact .popRefused rfl (Nat.not_lt.1 h)

/-- The handler of every instruction, under any configuration, has one of these outcomes. -/
theorem performs (cfg : Config) (i : Instr) (s : State) : Performs cfg i s (perform cfg i s) := by
  rcases badOperand_or_wellFormed i with ⟨c, hbad⟩ | hok
  · rw [perform_bad cfg hbad]
    exact .faults hbad
  · cases i with
    | nop => exact .nop rfl
    | hlt => exact .hlt rfl
    | prn a => exact performs_prn cfg (exists_reg_of_regOk hok).choose_spec s
    | pop a => exact performs_pop cfg (exists_reg_of_regOk hok).choose_spec s
    | push a => exact performs_push cfg (exists_reg_of_regOk hok).choose_spec s
    | inc a => exact performs_alu1 cfg .inc (exists_reg_of_regOk hok).choose_spec s rfl hok rfl
    | dec a => exact performs_alu1 cfg .dec (exists_reg_of_regOk hok).choose_spec s rfl hok rfl
    | ldi a v => exact performs_ldi cfg (exists_reg_of_regOk hok).choose_spec v s
    | add a b =>
      have h := Bool.and_eq_true_iff.1 hok
      exact performs_alu2 cfg .add h.1 h.2 s rfl hok rfl
    | mul a b =>
      have h := Bool.and_eq_true_iff.1 hok
      exact performs_alu2 cfg .mul h.1 h.2 s rfl hok rfl
    | and a b =>
      have h := Bool.and_eq_true_iff.1 hok
      exact performs_alu2 cfg .and h.1 h.2 s rfl hok rfl

/-! ## What an instruction changes and what it leaves -/

section
variable {cfg : Config} {i : Instr} {s t : State}

theorem Performs.ir (h : Performs cfg i s t) : t.ir = s.ir := by
  cases h <;> simp

/-- No instruction but HLT touches `run`. -/
theorem Performs.run (h : Performs cfg i s t) (hi : i.mnemonic ≠ .hlt) : t.run = s.run := by
  cases h with
  | hlt he => subst he; exact absurd rfl hi
  | _ => simp

/-- No instruction but PRN touches the output (43_prn.md R162). -/
theorem Performs.out (h : Performs cfg i s t) (hi : ∀ a, i ≠ .prn a) : t.out = s.out := by
  cases h with
  | prn he => exact absurd he (hi _)
  | _ => simp

/-- No instruction but PUSH touches memory (20_memory.md R53). -/
theorem Performs.mem (h : Performs cfg i s t) (hi : i.mnemonic ≠ .push) : t.mem = s.mem := by
  cases h with
  | push v he => subst he; exact absurd rfl hi
  | _ => simp

/-- Every instruction leaves memory alone outside the byte the next PUSH writes. -/
theorem Performs.memSameExcept (h : Performs cfg i s t) : MemSameExcept (pushAddr cfg s) s t := by
  cases h with
  | push v => exact fun b hb => Memory.read_write_other s.mem v hb
  | _ => exact fun b _ => by simp

theorem Performs.mem_wf (h : Performs cfg i s t) (hm : s.mem.wf = true) : t.mem.wf = true := by
  cases h with
  | push v => exact Memory.write_wf hm (pushAddr cfg s).isLt v
  | _ => simpa using hm

/-- An instruction changes no register outside the "writes" column of 10_state.md R24. -/
theorem Performs.regsSameExcept (h : Performs cfg i s t) : RegsSameExcept (i.writes cfg) s t := by
  intro q hq
  cases h with
  | writes v hi hok hw =>
    rw [hw, List.mem_singleton] at hq
    simp [hq]
  | push v hi ha =>
    subst hi
    have hsp : q ≠ cfg.spReg := by simpa [Instr.writes] using hq
    simp [hsp]
  | pop v w hi ha =>
    subst hi
    rw [Instr.writes, namedRegs_of_reg ha, List.mem_cons, List.mem_singleton, not_or] at hq
    simp [hq]
  | pushRefused hi =>
    subst hi
    have hsp : q ≠ cfg.spReg := by simpa [Instr.writes] using hq
    simp [hsp]
  | _ => simp

/-- The PC advances where the handler completed, and stays where a fault is latched (10_state.md R27). -/
theorem Performs.pc_cases (h : Performs cfg i s t) :
    (t.fault ≠ none ∧ t.pc = s.pc) ∨
    (t.fault = s.fault ∧ t.pc = wrapTo cfg.pcWidth (s.pc + operandCount s.ir + 1)) := by
  cases h with
  | faults => exact .inl ⟨by simp, rfl⟩
  | pushRefused => exact .inl ⟨by simp, rfl⟩
  | popRefused => exact .inl ⟨by simp, rfl⟩
  | _ => exact .inr ⟨by simp, by simp⟩

/-- With the whole of memory there, a well-formed instruction completes. -/
theorem Performs.completes (h : Performs cfg i s t) (hm : 256 ≤ cfg.memSize) (hok : i.wellFormed = true) :
    t.fault = s.fault ∧ t.pc = wrapTo cfg.pcWidth (s.pc + operandCount s.ir + 1) := by
  cases h with
  | faults hbad => exact absurd ((badOperand_none_iff i).2 hok) (by simp [hbad])
  | pushRefused _ hr => exact absurd (hm.trans hr) (pushAddr cfg s).isLt.not_ge
  | popRefused _ hr => exact absurd (hm.trans hr) (popAddr cfg s).isLt.not_ge
  | _ => exact ⟨by simp, by simp⟩

end

/-- With the whole of memory there, an instruction takes the fault of a bad operand or completes. -/
theorem perform_faults_or_completes {cfg : Config} (hm : 256 ≤ cfg.memSize) (i : Instr) (s : State) :
    (∃ c : Byte, 8 ≤ c.toNat ∧ perform cfg i s = s.raise (.regIndex c)) ∨
    ((perform cfg i s).fault = s.fault ∧
      (perform cfg i s).pc = wrapTo cfg.pcWidth (s.pc + operandCount s.ir + 1)) := by
  rcases badOperand_or_wellFormed i with ⟨c, hbad⟩ | hok
  · exact .inl ⟨c, badOperand_some hbad, perform_bad cfg hbad s⟩
  · exact .inr ((performs cfg i s).completes hm hok)

/-- The fault an instruction latches, with the whole of memory there and no fault before it, is that of its bad operand. -/
theorem perform_fault {cfg : Config} (hm : 256 ≤ cfg.memSize) (i : Instr) {s : State} (hs : s.fault = none) :
    (perform cfg i s).fault = i.badOperand.map .regIndex := by
  cases hbad : i.badOperand with
  | some c => simp [perform_bad cfg hbad]
  | none => simp [((performs cfg i s).completes hm ((badOperand_none_iff i).1 hbad)).1, hs]

end Sys2Proof.Machine
end

section
/-! What a step of this hardware changes and what it leaves (40_cycle_and_dispatch.md sections 1 to 4): each statement is read
off the three cases of a tick and the outcomes of a handler. -/

namespace Sys2Proof.Machine

/-! ## The cases of a step -/

theorem stopped_of_executing {s : State} (hs : s.Executing) : s.stopped = false := (State.stopped_eq_false_iff s).2 hs

theorem executing_of_not_stopped {s : State} (hs : s.stopped = false) : s.Executing := (State.stopped_eq_false_iff s).1 hs

/-- The instruction a hit runs, with the bytes this hardware fetches. -/
def State.fetched (s : State) (m : Mnemonic) : Instr := assemble m (s.byteAt (s.pc + 1)) (s.byteAt (s.pc + 2))

theorem State.fetched_mnemonic (s : State) (m : Mnemonic) : (s.fetched m).mnemonic = m := assemble_mnemonic m _ _

/-- Everything a step can do, by its next state: nothing on a stopped machine, a halt on a miss, an instruction on a hit. -/
theorem step_cases {s t : State} (h : step s = .next t) :
    (s.stopped = true ∧ t = s) ∨
    (s.Executing ∧ lookup Config.hw (s.byteAt s.pc) = none ∧ t = (s.setIr (s.byteAt s.pc)).halt) ∨
    (s.Executing ∧ ∃ m, lookup Config.hw (s.byteAt s.pc) = some m ∧
      Performs Config.hw (s.fetched m) (s.setIr (s.byteAt s.pc)) t ∧
      t = perform Config.hw (s.fetched m) (s.setIr (s.byteAt s.pc))) := by
  rw [step_next_iff] at h
  rcases tick_cases_hw s with ⟨hs, ht⟩ | ⟨hs, hl, ht⟩ | ⟨hs, m, hl, ht⟩
  · exact .inl ⟨hs, h.trans ht⟩
  · exact .inr (.inl ⟨executing_of_not_stopped hs, hl, h.trans ht⟩)
  · have ht := h.trans ht
    exact .inr (.inr ⟨executing_of_not_stopped hs, m, hl, ht ▸ performs Config.hw _ _, ht⟩)

/-- The same of an executing machine. -/
theorem step_cases_executing {s t : State} (hs : s.Executing) (h : step s = .next t) :
    (lookup Config.hw (s.byteAt s.pc) = none ∧ t = (s.setIr (s.byteAt s.pc)).halt) ∨
    (∃ m, lookup Config.hw (s.byteAt s.pc) = some m ∧
      Performs Config.hw (s.fetched m) (s.setIr (s.byteAt s.pc)) t ∧
      t = perform Config.hw (s.fetched m) (s.setIr (s.byteAt s.pc))) := by
  rcases step_cases h with ⟨hstop, -⟩ | ⟨-, hmiss⟩ | ⟨-, hhit⟩
  · exact absurd (stopped_of_executing hs) (by simp [hstop])
  · exact .inl hmiss
  · exact .inr hhit

/-! ## The invariant -/

/-- Settles O46: a step leaves memory canonical, and the only fault it can latch is that of a bad operand, on a machine that
was RUNNING and is left so. -/
theorem stepKeepsInvariant : Obligations.StepKeepsInvariant := by
  intro s t hinv h
  obtain ⟨hwf, hfault⟩ := hinv
  rcases step_cases h with ⟨-, rfl⟩ | ⟨⟨-, hnone⟩, -, rfl⟩ | ⟨⟨hrun, hnone⟩, m, -, hp, ht⟩
  · exact ⟨hwf, hfault⟩
  · exact ⟨hwf, fun c hc => by simp [hnone] at hc⟩
  · refine ⟨hp.mem_wf hwf, fun c hc => ?_⟩
    rcases perform_faults_or_completes (cfg := Config.hw) le_rfl (s.fetched m) (s.setIr (s.byteAt s.pc)) with
      ⟨i, hi, he⟩ | ⟨hf, -⟩
    · rw [ht, he] at hc ⊢
      exact ⟨hrun, i, hi, (Option.some.inj hc).symm⟩
    · rw [ht, hf] at hc
      simp [hnone] at hc

/-! ## `ir` and the fault latch -/

/-- With the whole of memory there, a tick that starts writes `ir` with the byte at the PC, and nothing writes it again. -/
theorem tick_ir {cfg : Config} (hm : 256 ≤ cfg.memSize) {s : State} (hs : s.Executing) :
    (tick cfg s).ir = s.byteAt s.pc := by
  rcases tick_cases hm s with ⟨hstop, -⟩ | ⟨-, -, ht⟩ | ⟨-, m, -, ht⟩
  · exact absurd (stopped_of_executing hs) (by simp [hstop])
  · simp [ht]
  · rw [ht]
    exact (performs cfg _ _).ir

theorem step_ir {s t : State} (hs : s.Executing) (h : step s = .next t) : t.ir = s.byteAt s.pc := by
  rw [step_next_iff.1 h]
  exact tick_ir (cfg := Config.hw) le_rfl hs

/-- Settles O34: `ir` is written before the lookup, and neither a halt nor a handler writes it again. -/
theorem everyStartedTickWritesIr : Obligations.EveryStartedTickWritesIr :=
  fun s hs => ⟨tick Config.hw s, step_eq_tick s, step_ir hs (step_eq_tick s)⟩

/-- Settles O33: an executing machine has no fault latched, so the fault is that of a bad operand, latched on the state with
`ir` written. -/
theorem faultIsPrecise : Obligations.FaultIsPrecise := by
  intro s t hs h hfault
  rcases step_cases_executing hs h with ⟨-, rfl⟩ | ⟨m, -, -, rfl⟩
  · exact absurd hs.2 hfault
  · rcases perform_faults_or_completes (cfg := Config.hw) le_rfl (s.fetched m) (s.setIr (s.byteAt s.pc)) with
      ⟨i, hi, he⟩ | ⟨hf, -⟩
    · exact ⟨i, hi, he⟩
    · exact absurd (hf.trans hs.2) hfault

/-- The fault of an instruction of one register operand. -/
theorem map_badOperand_one (a : Byte) :
    (Instr.prn a).badOperand.map FaultCause.regIndex = if 8 ≤ a.toNat then some (.regIndex a) else none := by
  by_cases ha : 8 ≤ a.toNat
  · simp [badOperand_prn ha, ha]
  · simp [Instr.badOperand, ha, regOk_iff.2 (Nat.not_le.1 ha)]

/-- The fault of an instruction of two: operand A is reported first. -/
theorem map_badOperand_two (a b : Byte) :
    (Instr.add a b).badOperand.map FaultCause.regIndex =
      if 8 ≤ a.toNat then some (.regIndex a) else if 8 ≤ b.toNat then some (.regIndex b) else none := by
  by_cases ha : 8 ≤ a.toNat
  · simp [Instr.badOperand, ha, regOk_eq_false_iff.2 ha]
  · by_cases hb : 8 ≤ b.toNat
    · simp [Instr.badOperand, ha, hb, regOk_iff.2 (Nat.not_le.1 ha), regOk_eq_false_iff.2 hb]
    · simp [Instr.badOperand, ha, hb, regOk_iff.2 (Nat.not_le.1 ha), regOk_iff.2 (Nat.not_le.1 hb)]

/-- Settles O32: a miss latches nothing; a hit latches the bad operand of the instruction the three bytes make. -/
theorem faultPriorityInAStep : Obligations.FaultPriorityInAStep := by
  rintro s op opA opB hs ⟨rfl, rfl, rfl⟩
  refine ⟨tick Config.hw s, step_eq_tick s, ?_⟩
  rcases step_cases_executing hs (step_eq_tick s) with ⟨hl, ht⟩ | ⟨m, hl, -, ht⟩
  · rw [ht, hl]
    exact hs.2
  · have hf := perform_fault (cfg := Config.hw) le_rfl (s.fetched m) (s := s.setIr (s.byteAt s.pc)) hs.2
    rw [ht, hl, hf]
    cases m with
    | nop | hlt => rfl
    | prn | pop | push | inc | dec | ldi => exact map_badOperand_one _
    | add | mul | and => exact map_badOperand_two _ _

/-! ## The PC -/

/-- Settles O36: the PC advances on a hit that does not fault; a miss halts in place and a fault leaves the PC. -/
theorem pcMovesOnlyByDeclaredLength : Obligations.PcMovesOnlyByDeclaredLength := by
  intro s t h
  rcases step_cases h with ⟨hstop, rfl⟩ | ⟨-, hl, rfl⟩ | ⟨⟨hrun, hnone⟩, m, hl, hp, -⟩
  · rw [if_neg]
    rintro ⟨hrun, hnone, -⟩
    exact absurd (stopped_of_executing ⟨hrun, hnone⟩) (by simp [hstop])
  · simp [hl]
  · rcases hp.pc_cases with ⟨hf, hpc⟩ | ⟨hf, hpc⟩
    · simpa [hf] using hpc
    · have hf : t.fault = none := hf.trans hnone
      simpa [hrun, hnone, hl, hf] using hpc

/-! ## Halting -/

/-- On a hit the machine is left HALTED exactly by HLT. -/
theorem run_of_hit {s t : State} {m : Mnemonic} (hrun : s.run = .running)
    (hp : Performs Config.hw (s.fetched m) (s.setIr (s.byteAt s.pc)) t)
    (ht : t = perform Config.hw (s.fetched m) (s.setIr (s.byteAt s.pc))) : t.run = .halted ↔ m = .hlt := by
  refine ⟨fun hh => by_contra fun hm => ?_, ?_⟩
  · have hsame : t.run = s.run := hp.run (by rwa [State.fetched_mnemonic])
    simp [hsame, hrun] at hh
  · rintro rfl
    rw [ht]
    rfl

/-- HLT at the PC: HALTED with no fault, `ir` its opcode, the PC past it (41_halt_nop.md R140). -/
theorem hlt_of_hit {s : State} (hs : s.fault = none) (hb : s.byteAt s.pc = Config.hw.opc.hlt) :
    (perform Config.hw (s.fetched .hlt) (s.setIr (s.byteAt s.pc))).EndedByHlt Config.hw ∧
    (perform Config.hw (s.fetched .hlt) (s.setIr (s.byteAt s.pc))).pc = s.pc + 1 := by
  have hpc : s.pc + operandCount Config.hw.opc.hlt + 1 = s.pc + 1 := by
    simp [show operandCount Config.hw.opc.hlt = 0 from rfl]
  exact ⟨⟨⟨rfl, hs⟩, hb⟩, by rw [← hpc, ← hb]; rfl⟩

/-- Settles O37: a HALTED machine is stopped; an executing one halts on a miss, in place, or on HLT, past it. -/
theorem haltsInExactlyTwoWays : Obligations.HaltsInExactlyTwoWays := by
  intro s t h
  rcases step_cases h with ⟨hstop, rfl⟩ | ⟨⟨hrun, hnone⟩, hl, rfl⟩ | ⟨⟨hrun, hnone⟩, m, hl, hp, ht⟩
  · have hfault : t.run = .running → t.fault ≠ none := fun hr hf =>
      absurd (stopped_of_executing ⟨hr, hf⟩) (by simp [hstop])
    refine ⟨id, fun hr => ?_, fun hr hh => ?_⟩
    · simp [hr, hfault hr]
    · rw [hr] at hh
      cases hh
  · have hend : (s.setIr (s.byteAt s.pc)).halt.EndedImplicitly Config.hw := ⟨⟨rfl, hnone⟩, hl⟩
    exact ⟨fun _ => rfl, fun _ => ⟨fun _ => ⟨hnone, .inr hl⟩, fun _ => rfl⟩, fun _ _ => .inr ⟨hend, rfl⟩⟩
  · have hb := lookup_hw_eq_some_iff.1 hl
    have hhalt := run_of_hit hrun hp ht
    have hm : s.byteAt s.pc = Config.hw.opc.hlt ↔ m = .hlt := by
      rw [hb]
      exact ⟨Opc.byte_injective Config.opc_hw_legal (k := .hlt), fun e => by rw [e]; rfl⟩
    refine ⟨fun hh => by simp [hrun] at hh, fun _ => ?_, fun _ hh => .inl ?_⟩
    · simp [hhalt, hm, hnone, hl]
    · obtain rfl := hhalt.1 hh
      rw [ht]
      exact hlt_of_hit hnone hb

/-! ## Memory -/

theorem step_memSameExcept {s t : State} (h : step s = .next t) : MemSameExcept (pushAddr Config.hw s) s t := by
  rcases step_cases h with ⟨-, rfl⟩ | ⟨-, -, rfl⟩ | ⟨-, m, -, hp, -⟩
  · exact fun _ _ => rfl
  · exact fun _ _ => rfl
  · exact hp.memSameExcept

/-- Settles O38: only PUSH's handler writes memory, and its opcode byte is the one looked up to it. -/
theorem memoryChangesOnlyByPush : Obligations.MemoryChangesOnlyByPush := by
  refine fun s t h => ⟨step_memSameExcept h, fun hne => ?_⟩
  rcases step_cases h with ⟨-, rfl⟩ | ⟨-, -, rfl⟩ | ⟨-, m, hl, hp, -⟩
  · exact fun _ => rfl
  · exact fun _ => rfl
  · have hm : (s.fetched m).mnemonic ≠ .push := by
      rw [State.fetched_mnemonic]
      rintro rfl
      exact hne (lookup_hw_eq_some_iff.1 hl)
    exact fun a => by rw [hp.mem hm, State.setIr_mem]

/-- Settles O45: the one byte a step may change is at or above the program's end. -/
theorem stepKeepsProgramBelowStack : Obligations.StepKeepsProgramBelowStack := by
  rintro s t prog ⟨hlen, hprog⟩ hbelow h
  refine ⟨hlen, fun k hk => ?_⟩
  rw [step_memSameExcept h k (hk.trans_le hbelow).ne, hprog k hk]

/-! ## The output -/

/-- Settles O39: only PRN's handler emits, and it emits the register its operand byte names. -/
theorem outputGrowsOnlyByPrn : Obligations.OutputGrowsOnlyByPrn := by
  refine fun s t h => ⟨fun r hs hb hr => ?_, fun hno => ?_⟩
  · have hl : lookup Config.hw (s.byteAt s.pc) = some .prn := lookup_hw_eq_some_iff.2 hb
    rcases step_cases_executing hs h with ⟨hl', -⟩ | ⟨m, hl', -, ht⟩
    · simp [hl] at hl'
    · obtain rfl : Mnemonic.prn = m := Option.some.inj (hl.symm.trans hl')
      rw [ht, State.fetched, assemble, perform, handlePrn, withReg_reg hr]
      simp
  · rcases step_cases h with ⟨-, rfl⟩ | ⟨-, -, rfl⟩ | ⟨hs, m, hl, hp, ht⟩
    · rfl
    · rfl
    · by_cases hm : m = .prn
      · subst hm
        have hbad : 8 ≤ (s.byteAt (s.pc + 1)).toNat := by
          by_contra hlt
          exact hno ⟨hs, lookup_hw_eq_some_iff.1 hl, Nat.not_le.1 hlt⟩
        rw [ht, State.fetched, assemble, perform_bad Config.hw (badOperand_prn hbad)]
        rfl
      · refine (hp.out fun a ha => hm ?_).trans (State.setIr_out s _)
        rw [← State.fetched_mnemonic s m, ha]
        rfl

/-! ## Registers -/

/-- Settles O40: the handlers' outcomes, which the meaning answers as they stand. -/
theorem registersWrittenFollowTable : Obligations.RegistersWrittenFollowTable := by
  intro i s t h
  rw [exec_eq_perform] at h
  cases h
  exact ⟨(performs Config.hw i s).regsSameExcept, (performs Config.hw i s).ir⟩

/-! ## The meaning a step runs, and the step that does nothing -/

/-- Settles O30: the start of the tick answers the decoded instruction with `ir` written. -/
theorem stepRunsDecodedInstruction : Obligations.StepRunsDecodedInstruction := by
  intro s i hs hd
  have hstart : startTick Config.hw s = .instr i (s.setIr (s.byteAt s.pc)) := by
    rw [startTick_full (cfg := Config.hw) le_rfl (stopped_of_executing hs), fetchAddr_hw, fetchAddr_hw, hd]
  rw [step, hstart]
  rfl

theorem step_of_stopped {s : State} (hs : s.stopped = true) : step s = .next s := by
  rw [step_eq_tick, tick_stopped Config.hw hs]

theorem drive_stopped (cfg : Config) {s : State} (hs : s.stopped = true) (k : Nat) : drive cfg k s = s := by
  cases k with
  | zero => rfl
  | succ k => simp [drive, hs]

/-- Settles O35: both the tick and the driving loop ask first whether the machine is stopped. -/
theorem stoppedMachineFreezes : Obligations.StoppedMachineFreezes := by
  intro s hs
  have hstop := (State.stopped_iff s).2 hs
  exact ⟨step_of_stopped hstop, drive_stopped Config.hw hstop⟩

end Sys2Proof.Machine
end

section
/-! The ALU instructions (44_alu.md) and the stack (45_stack.md): each result from the meaning's one equation, each frame from
the frames of a register write, a store and the PC advance. -/

namespace Sys2Proof.Machine

/-! ## Bad operands -/

/-- The fault clause of an instruction of one register operand. -/
theorem exec_faultsOn_operandA {i : Instr} {a : Byte} (hi : i.badOperand = if regOk a then none else some a)
    (ha : 8 ≤ a.toNat) (s : State) : ∃ t, exec i s = .next t ∧ FaultsOn a s t :=
  exec_faultsOn (by rw [hi, regOk_eq_false_iff.2 ha]; rfl) s

/-- The fault clauses of an instruction of two: operand A is reported first. -/
theorem exec_faultsOn_operandsAB {i : Instr} {a b : Byte}
    (hi : i.badOperand = if !regOk a then some a else if !regOk b then some b else none) (s : State) :
    (8 ≤ a.toNat → ∃ t, exec i s = .next t ∧ FaultsOn a s t) ∧
    (a.toNat < 8 → 8 ≤ b.toNat → ∃ t, exec i s = .next t ∧ FaultsOn b s t) :=
  ⟨fun ha => exec_faultsOn (by rw [hi, regOk_eq_false_iff.2 ha]; rfl) s,
    fun ha hb => exec_faultsOn (by rw [hi, regOk_iff.2 ha, regOk_eq_false_iff.2 hb]; rfl) s⟩

/-! ## The ALU -/

/-- Settles O20: the register written is the sum; a bad operand is reported in the order A, B. -/
theorem addWritesSumModulo256 : Obligations.AddWritesSumModulo256 := by
  intro a b s
  refine ⟨fun ra rb ha hb => ⟨_, exec_add ha hb s, ?_, s.setReg_advance_frame .add ra _⟩,
    exec_faultsOn_operandsAB rfl s⟩
  rw [State.advance_reg, State.setReg_reg_same]
  exact BitVec.toNat_add _ _

/-- Settles O21: the register written is the product; a bad operand is reported in the order A, B. -/
theorem mulWritesProductModulo256 : Obligations.MulWritesProductModulo256 := by
  intro a b s
  refine ⟨fun ra rb ha hb => ⟨_, exec_mul ha hb s, ?_, s.setReg_advance_frame .mul ra _⟩,
    exec_faultsOn_operandsAB rfl s⟩
  rw [State.advance_reg, State.setReg_reg_same]
  exact BitVec.toNat_mul _ _

/-- Settles O22: the register written is the bitwise AND; a bad operand is reported in the order A, B. -/
theorem andWritesBitwiseAnd : Obligations.AndWritesBitwiseAnd := by
  intro a b s
  refine ⟨fun ra rb ha hb => ⟨_, exec_and ha hb s, ?_⟩,
    exec_faultsOn_operandsAB rfl s⟩
  rw [State.advance_reg, State.setReg_reg_same, BitVec.toNat_and]
  exact ⟨fun k _ => BitVec.getLsbD_and, Nat.and_le_left, Nat.and_le_right, s.setReg_advance_frame .and ra _⟩

/-- Settles O23: the register written is the value plus one. -/
theorem incAddsOneModulo256 : Obligations.IncAddsOneModulo256 := by
  intro a s
  refine ⟨fun r ha => ⟨_, exec_inc ha s, ?_, s.setReg_advance_frame .inc r _⟩,
    fun ha => exec_faultsOn_operandA rfl ha s⟩
  rw [State.advance_reg, State.setReg_reg_same]
  exact BitVec.toNat_add _ _

/-- Taking one away modulo 256 is adding 255. -/
theorem toNat_sub_one (x : Byte) : (x - 1).toNat = (x.toNat + 255) % 256 := by
  rw [BitVec.toNat_sub, Nat.add_comm]
  rfl

/-- Settles O24: the register written is the value minus one. -/
theorem decSubtractsOneModulo256 : Obligations.DecSubtractsOneModulo256 := by
  intro a s
  refine ⟨fun r ha => ⟨_, exec_dec ha s, ?_, s.setReg_advance_frame .dec r _⟩,
    fun ha => exec_faultsOn_operandA rfl ha s⟩
  rw [State.advance_reg, State.setReg_reg_same]
  exact toNat_sub_one _

/-- Writing a register twice and ending with its own value restores every register. -/
theorem regsSameExcept_nil_of_restored {s : State} {r : RegIndex} {v w : Byte} (h : w = s.reg r) :
    RegsSameExcept [] s ((((s.setReg r v).advance Config.hw).setReg r w).advance Config.hw) := by
  intro q _
  simp only [State.advance_reg, State.setReg_reg]
  split
  · next hq => rw [hq, h]
  · rfl

/-- Settles O27: the second instruction writes back the value the first one found. -/
theorem incAndDecRoundTrip : Obligations.IncAndDecRoundTrip := by
  intro a s ha
  obtain ⟨r, hr⟩ := exists_reg_of_lt ha
  refine ⟨⟨_, _, exec_inc hr s, exec_dec hr _, regsSameExcept_nil_of_restored ?_, fun _ => rfl⟩,
    ⟨_, _, exec_dec hr s, exec_inc hr _, regsSameExcept_nil_of_restored ?_, fun _ => rfl⟩⟩
  · simp
  · simp

/-! ## The stack -/

/-- Settles O25: the decrement is a register write, the push a store, and neither touches what the PC advance does. -/
theorem pushDecrementsThenWrites : Obligations.PushDecrementsThenWrites := by
  intro a s hm
  refine ⟨fun r ha => ⟨_, exec_push ha s, ?_⟩, fun ha => exec_faultsOn_operandA rfl ha s⟩
  generalize hv : (if r = 7 then s.reg 7 - 1 else s.reg r) = v
  have hp : Performs Config.hw (.push a) s (((s.setReg 7 (s.reg 7 - 1)).store (s.reg 7 - 1) v).advance Config.hw) :=
    .push v rfl ha
  have hbyte : ((s.setReg 7 (s.reg 7 - 1)).store (s.reg 7 - 1) v).byteAt (s.reg 7 - 1) = v :=
    State.store_byteAt_same hm _ v
  refine ⟨?_, ?_, ?_, hp.memSameExcept, State.advance_advancesBy .push rfl rfl, hp.regsSameExcept,
    State.advance_controlSame Config.hw _⟩
  · simpa using toNat_sub_one (s.reg 7)
  · simp [pushAddr]
  · exact hbyte.trans (hv.symm.trans (by simp))

/-- Settles O26: POP is two register writes and the PC advance. -/
theorem popReadsThenIncrements : Obligations.PopReadsThenIncrements := by
  intro a s
  refine ⟨fun r ha => ⟨_, exec_pop ha s, fun hr => ?_, fun hr => ?_, State.advance_advancesBy .pop rfl rfl,
    fun q hq => ?_, State.advance_controlSame Config.hw _, fun _ => rfl⟩, fun ha => exec_faultsOn_operandA rfl ha s⟩
  · exact ⟨by simp [hr, State.byteAt, popAddr], by simp [hr]⟩
  · simp [hr, State.byteAt, popAddr]
  · rw [List.mem_cons, List.mem_singleton, not_or] at hq
    simp [hq]

/-- PUSH of a register other than the stack pointer, as the stack's laws use it: addresses, values, frame, canonical form. -/
theorem exec_push_spec {a : Byte} {r : RegIndex} (ha : a.toNat = r.val) (hr : r ≠ 7) {s : State} (hm : s.mem.wf = true) :
    ∃ t, exec (.push a) s = .next t ∧ t.mem.wf = true ∧ t.reg 7 = s.reg 7 - 1 ∧ t.byteAt (s.reg 7 - 1) = s.reg r ∧
      RegsSameExcept [7] s t ∧ MemSameExcept (s.reg 7 - 1) s t := by
  obtain ⟨t, ht, -, hsp, hbyte, hmem, -, hregs, -⟩ := (pushDecrementsThenWrites a s hm).1 r ha
  rw [if_neg hr] at hbyte
  have hp := performs Config.hw (.push a) s
  rw [← Host.Outcome.next.inj ((exec_eq_perform _ s).symm.trans ht)] at *
  exact ⟨_, ht, hp.mem_wf hm, hsp, hbyte, hregs, hmem⟩

/-- POP into a register other than the stack pointer. -/
theorem exec_pop_spec {c : Byte} {r : RegIndex} (hc : c.toNat = r.val) (hr : r ≠ 7) (s : State) :
    ∃ t, exec (.pop c) s = .next t ∧ t.reg r = s.byteAt (s.reg 7) ∧ t.reg 7 = s.reg 7 + 1 ∧
      RegsSameExcept [r, 7] s t ∧ MemSame s t := by
  obtain ⟨t, ht, hval, -, -, hregs, -, hmem⟩ := (popReadsThenIncrements c s).1 r hc
  obtain ⟨hv, hsp⟩ := hval hr
  exact ⟨t, ht, hv, BitVec.eq_of_toNat_eq (hsp.trans (BitVec.toNat_add (s.reg 7) 1).symm), hregs, hmem⟩

/-- Settles O28: POP reads the very byte PUSH wrote, and the two moves of the stack pointer cancel. -/
theorem pushThenPopCopies : Obligations.PushThenPopCopies := by
  intro a c ra rc s hm ha hc hra hrc
  obtain ⟨t, ht, -, htsp, htbyte, htregs, htmem⟩ := exec_push_spec ha hra hm
  obtain ⟨u, hu, huval, husp, huregs, humem⟩ := exec_pop_spec hc hrc t
  refine ⟨t, u, ht, hu, ?_, fun q hq => ?_, ?_, fun b hb => ?_⟩
  · rw [huval, htsp, htbyte]
  · by_cases h7 : q = 7
    · rw [h7, husp, htsp, BitVec.sub_add_cancel]
    · rw [huregs q (by simp_all), htregs q (by simp [h7])]
  · exact (humem _).trans htbyte
  · rw [humem, htmem b hb]

/-- Settles O29: the two pushed bytes stand at different addresses, and each POP reads the one the stack pointer is at. -/
theorem stackReversesOrder : Obligations.StackReversesOrder := by
  intro a b c d ra rb rc rd s hm ha hb hc hd hra hrb hrc hrd hcd
  obtain ⟨t, ht, htwf, htsp, htbyte, htregs, -⟩ := exec_push_spec ha hra hm
  obtain ⟨u, hu, -, husp, hubyte, -, humem⟩ := exec_push_spec hb hrb htwf
  obtain ⟨v, hv, hvval, hvsp, -, hvmem⟩ := exec_pop_spec hc hrc u
  obtain ⟨w, hw, hwval, hwsp, hwregs, -⟩ := exec_pop_spec hd hrd v
  have hvsp' : v.reg 7 = t.reg 7 := by rw [hvsp, husp, BitVec.sub_add_cancel]
  have hne : t.reg 7 ≠ t.reg 7 - 1 := by bv_omega
  have hfirst : v.byteAt (v.reg 7) = s.reg ra := by
    rw [hvsp', State.byteAt, hvmem, humem _ (addr_toNat_ne hne), htsp]
    exact htbyte
  refine ⟨t, u, v, w, ht, hu, hv, hw, ?_, ?_, ?_⟩
  · rw [hwregs rc (by simp [hcd, hrc]), hvval, husp, hubyte, htregs rb (by simp [hrb])]
  · rw [hwval, hfirst]
  · rw [hwsp, hvsp', htsp, BitVec.sub_add_cancel]

end Sys2Proof.Machine
end

section
/-! Reset and loading (10_state.md section 8, 20_memory.md section 5): what reset leaves whatever the OPEN parameters, a poke
as one write of memory, and a load as one memory with the program in it. -/

namespace Sys2Proof

/-! ## The parameters this hardware decides -/

section
variable {cfg : Config} (h : cfg.isHw)
include h

theorem Config.isHw.memSize : cfg.memSize = 256 := congrArg Config.memSize h

theorem Config.isHw.spReg : cfg.spReg = 7 := congrArg Config.spReg h

theorem Config.isHw.spInit : cfg.spInit = 0xF4 := congrArg Config.spInit h

theorem Config.isHw.resetPc : cfg.resetPc = 0 := congrArg Config.resetPc h

end

namespace Machine

/-! ## Reset -/

theorem resetOf_reg_spReg (cfg : Config) : (State.resetOf cfg).reg cfg.spReg = cfg.spInit := by
  simp [State.resetOf, State.reg]

theorem resetState_executing {s : State} (h : s.ResetState) : s.Executing := by
  obtain ⟨cfg, -, -, rfl⟩ := h
  exact ⟨rfl, rfl⟩

theorem resetState_wf {s : State} (h : s.ResetState) : s.mem.wf = true := by
  obtain ⟨cfg, -, hwf, rfl⟩ := h
  exact hwf

theorem resetState_pc {s : State} (h : s.ResetState) : s.pc = 0 := by
  obtain ⟨cfg, hhw, -, rfl⟩ := h
  exact hhw.resetPc

theorem resetState_sp {s : State} (h : s.ResetState) : s.reg 7 = 0xF4 := by
  obtain ⟨cfg, hhw, -, rfl⟩ := h
  rw [← hhw.spInit, ← resetOf_reg_spReg cfg, hhw.spReg]

/-- Settles O9: each value is a decided parameter or reset's own. -/
theorem resetLeavesStatedValues : Obligations.ResetLeavesStatedValues := by
  refine ⟨fun s h => ?_, Config.hw, rfl, rfl, rfl⟩
  obtain ⟨hrun, hfault⟩ := resetState_executing h
  refine ⟨resetState_pc h, hrun, resetState_sp h, hfault, ?_⟩
  obtain ⟨cfg, -, -, rfl⟩ := h
  rfl

/-- Settles O10: the memory before loading is canonical, and reset latches no fault. -/
theorem invariantHoldsAtReset : Obligations.InvariantHoldsAtReset :=
  fun s h => ⟨resetState_wf h, fun c hc => by simp [(resetState_executing h).2] at hc⟩

/-- Settles O15: the stack pointer is 0xF4 at reset, and PUSH decrements it first. -/
theorem firstPushLandsBelowSpInit : Obligations.FirstPushLandsBelowSpInit := by
  intro s a r h ha hr
  obtain ⟨t, ht, -, hsp, hbyte, -⟩ := exec_push_spec ha hr (resetState_wf h)
  rw [resetState_sp h] at hsp hbyte
  exact ⟨t, ht, hsp, hbyte⟩

/-! ## Poking -/

/-- Settles O54: the cases of a poke, by whether the machine is stopped and whether memory has the address. -/
theorem pokeIsOneMemoryWrite : Obligations.PokeIsOneMemoryWrite := by
  intro cfg s a v
  refine ⟨fun hs ha => ?_, fun hs ha => ?_, fun hs => State.poke_stopped cfg ((State.stopped_iff s).2 hs) a v⟩
  · simp [State.poke, stopped_of_executing hs, memWrite, ha]
  · simp [State.poke, stopped_of_executing hs, memWrite, ha.not_gt, State.raise]

/-- With the whole of memory there, a poke changes nothing but memory, and keeps it canonical. -/
theorem poke_eq_with_mem {cfg : Config} (hm : 256 ≤ cfg.memSize) {s : State} (hwf : s.mem.wf = true) (a : Addr) (v : Byte) :
    ∃ m : Memory, m.wf = true ∧ s.poke cfg a v = { s with mem := m } := by
  cases hs : s.stopped with
  | true => exact ⟨s.mem, hwf, State.poke_stopped cfg hs a v⟩
  | false => exact ⟨s.mem.write a.toNat v, Memory.write_wf hwf a.isLt v, State.poke_full hm hs a v⟩

/-- The same of any list of pokes. -/
theorem pokeAll_eq_with_mem {cfg : Config} (hm : 256 ≤ cfg.memSize) (cs : List (Addr × Byte)) {s : State}
    (hwf : s.mem.wf = true) : ∃ m : Memory, m.wf = true ∧ s.pokeAll cfg cs = { s with mem := m } := by
  induction cs generalizing s with
  | nil => exact ⟨s.mem, hwf, rfl⟩
  | cons c cs ih =>
    obtain ⟨m, hmwf, hpoke⟩ := poke_eq_with_mem hm hwf c.1 c.2
    rw [State.pokeAll, hpoke]
    exact ih (s := { s with mem := m }) hmwf

/-! ## Loading -/

/-- Loading at `n` leaves one new memory: canonical, the bytes at their addresses, every other address as before. -/
theorem loadAt_eq_with_mem (prog : List Byte) {s : State} (hs : s.Executing) (hwf : s.mem.wf = true) (n : Nat)
    (hlen : n + prog.length ≤ 256) :
    ∃ m : Memory, m.wf = true ∧ s.loadAt Config.hw (BitVec.ofNat 8 n) prog = { s with mem := m } ∧
      (∀ k, k < prog.length → m.read (n + k) = prog.getD k 0) ∧
      (∀ k, k < n ∨ n + prog.length ≤ k → m.read k = s.mem.read k) := by
  induction prog generalizing s n with
  | nil => exact ⟨s.mem, hwf, rfl, by simp, fun _ _ => rfl⟩
  | cons v rest ih =>
    rw [List.length_cons] at hlen
    have hn : (BitVec.ofNat 8 n).toNat = n := Nat.mod_eq_of_lt (by omega)
    have hsucc : BitVec.ofNat 8 n + 1 = BitVec.ofNat 8 (n + 1) := (BitVec.ofNat_add n 1).symm
    obtain ⟨m, hm, hload, hin, hout⟩ := ih (s := s.store (BitVec.ofNat 8 n) v) hs (State.store_wf hwf _ v) (n + 1) (by omega)
    rw [State.store_mem, hn] at hout
    refine ⟨m, hm, ?_, fun k hk => ?_, fun k hk => ?_⟩
    · rw [State.loadAt, State.Executing.poke_hw hs, hsucc, hload]
      rfl
    · cases k with
      | zero => rw [Nat.add_zero, hout n (.inl n.lt_succ_self), Memory.read_write_same hwf]; rfl
      | succ k => exact (congrArg m.read (Nat.succ_add_eq_add_succ n k).symm).trans (hin k (Nat.lt_of_succ_lt_succ hk))
    · rw [List.length_cons] at hk
      rw [hout k (by omega), Memory.read_write_other _ _ (by omega)]

/-- Settles O13: a load is one new memory. -/
theorem loadPutsProgramAtZero : Obligations.LoadPutsProgramAtZero := by
  intro s prog hwf hs hlen
  obtain ⟨m, hm, hload, hin, hout⟩ := loadAt_eq_with_mem prog hs hwf 0 (by omega)
  have hload : s.load Config.hw prog = { s with mem := m } := hload
  rw [hload]
  refine ⟨⟨hlen, fun k hk => ?_⟩, hm, fun k hk => hout k (.inr (by omega)), fun _ _ => rfl, ⟨rfl, rfl, rfl, rfl⟩, rfl⟩
  rw [← hin k hk, Nat.zero_add]

/-- Settles O14: the loaded machine still executes at PC 0, where the program's first byte stands. -/
theorem firstTickRunsFirstByte : Obligations.FirstTickRunsFirstByte := by
  intro s op rest h hlen
  have hs := resetState_executing h
  obtain ⟨⟨-, hprog⟩, -, -, -, ⟨-, hrun, hfault, -⟩, hpc⟩ :=
    loadPutsProgramAtZero s (op :: rest) (resetState_wf h) hs (Nat.succ_le_succ hlen)
  have hfirst : (s.load Config.hw (op :: rest)).byteAt (s.load Config.hw (op :: rest)).pc = op := by
    rw [hpc, resetState_pc h]
    exact hprog 0 (Nat.succ_pos _)
  have hexec : (s.load Config.hw (op :: rest)).Executing := ⟨hrun.trans hs.1, hfault.trans hs.2⟩
  exact ⟨_, step_eq_tick _, (step_ir hexec (step_eq_tick _)).trans hfirst⟩

end Machine

end Sys2Proof
end

section
/-! The tick under any parameters (00_scope.md R6): where the bytes are fetched, which access faults first, and how far the PC
moves, for every width and memory size. -/

namespace Sys2Proof

/-! ## Instructions by their encoding -/

/-- An instruction is its mnemonic and its operand bytes. -/
theorem Instr.ext_operands {i j : Instr} (hm : i.mnemonic = j.mnemonic) (ho : i.operands = j.operands) : i = j := by
  rw [← assemble_operands i, hm, ho, assemble_operands]

/-- A handler takes from the two bytes those its arity says, and ignores the others (40_cycle_and_dispatch.md R115). -/
theorem assemble_congr {m : Mnemonic} {x y x' y' : Byte} (h : [x, y].take m.arity = [x', y'].take m.arity) :
    assemble m x y = assemble m x' y' :=
  Instr.ext_operands (by simp) (by rw [assemble_operands_eq, assemble_operands_eq, h])

/-- Two bytes that agree with a short list as far as it goes. -/
theorem take_pair_eq {x y : Byte} {bytes : List Byte} (h2 : bytes.length ≤ 2) (hx : 0 < bytes.length → x = bytes.getD 0 0)
    (hy : 1 < bytes.length → y = bytes.getD 1 0) : [x, y].take bytes.length = bytes := by
  match bytes, h2 with
  | [], _ => rfl
  | [b], _ => simpa using hx
  | [b, c], _ => simpa using And.intro (hx (by simp)) (hy (by simp))

/-- A declared length taken at eight bits and then wrapped is the length modulo the PC's width. -/
theorem wrapTo_length_toNat {w : Nat} (h : w ≤ 8) (p n : Byte) :
    (wrapTo w (p + n + 1)).toNat = (p.toNat + n.toNat + 1) % 2 ^ w := by
  rw [wrapTo_add_toNat h, BitVec.toNat_add, Nat.add_mod, Nat.mod_mod_of_dvd _ (Nat.pow_dvd_pow 2 h), ← Nat.add_mod]
  rfl

namespace Machine

/-! ## The cases of a tick -/

theorem fetchAddr_toNat {cfg : Config} (h : cfg.addrWidth ≤ 8) (p k : Addr) :
    (fetchAddr cfg p k).toNat = (p.toNat + k.toNat) % 2 ^ cfg.addrWidth :=
  wrapTo_add_toNat h p k

/-- Where memory has the three fetch addresses, an executing machine runs what the bytes there decode to. -/
theorem tick_of_decode {cfg : Config} {s : State} {i : Instr} (hs : s.Executing) (h0 : s.pc.toNat < cfg.memSize)
    (h1 : (fetchAddr cfg s.pc 1).toNat < cfg.memSize) (h2 : (fetchAddr cfg s.pc 2).toNat < cfg.memSize)
    (hd : decodeBytes cfg (s.byteAt s.pc) (s.byteAt (fetchAddr cfg s.pc 1)) (s.byteAt (fetchAddr cfg s.pc 2)) = .ok i) :
    tick cfg s = perform cfg i (s.setIr (s.byteAt s.pc)) := by
  rw [tick, startTick_eq cfg (stopped_of_executing hs), if_pos h0, if_pos h1, if_pos h2, hd]

/-- The same on a hit. -/
theorem tick_of_hit {cfg : Config} {s : State} {m : Mnemonic} (hs : s.Executing) (h0 : s.pc.toNat < cfg.memSize)
    (h1 : (fetchAddr cfg s.pc 1).toNat < cfg.memSize) (h2 : (fetchAddr cfg s.pc 2).toNat < cfg.memSize)
    (hl : lookup cfg (s.byteAt s.pc) = some m) :
    tick cfg s = perform cfg
      (assemble m (s.byteAt (fetchAddr cfg s.pc 1)) (s.byteAt (fetchAddr cfg s.pc 2))) (s.setIr (s.byteAt s.pc)) :=
  tick_of_decode hs h0 h1 h2 (decodeBytes_ok.2 ⟨m, hl, rfl⟩)

/-- The first fetch address at or above MEM_SIZE is the fault; `ir` is written by then unless it is the opcode's own
(60_exceptions.md R213). -/
theorem tick_of_refused_fetch {cfg : Config} {s : State} (hs : s.Executing) :
    (cfg.memSize ≤ s.pc.toNat → tick cfg s = s.raise (.memRange s.pc)) ∧
    (s.pc.toNat < cfg.memSize → cfg.memSize ≤ (fetchAddr cfg s.pc 1).toNat →
      tick cfg s = (s.setIr (s.byteAt s.pc)).raise (.memRange (fetchAddr cfg s.pc 1))) ∧
    (s.pc.toNat < cfg.memSize → (fetchAddr cfg s.pc 1).toNat < cfg.memSize → cfg.memSize ≤ (fetchAddr cfg s.pc 2).toNat →
      tick cfg s = (s.setIr (s.byteAt s.pc)).raise (.memRange (fetchAddr cfg s.pc 2))) := by
  have hstop := stopped_of_executing hs
  refine ⟨fun h0 => ?_, fun h0 h1 => ?_, fun h0 h1 h2 => ?_⟩
  · rw [tick, startTick_eq cfg hstop, if_neg h0.not_gt]
  · rw [tick, startTick_eq cfg hstop, if_pos h0, if_neg h1.not_gt]
  · rw [tick, startTick_eq cfg hstop, if_pos h0, if_pos h1, if_neg h2.not_gt]

/-- Everything an executing machine's tick can do, for a memory of any size: a refused fetch, a miss, an instruction. -/
theorem tick_cases_any (cfg : Config) {s : State} (hs : s.Executing) :
    (∃ u c, tick cfg s = State.raise u c ∧ u.pc = s.pc) ∨
    (lookup cfg (s.byteAt s.pc) = none ∧ tick cfg s = (s.setIr (s.byteAt s.pc)).halt) ∨
    (∃ i, Performs cfg i (s.setIr (s.byteAt s.pc)) (tick cfg s)) := by
  obtain ⟨hopcode, hopA, hopB⟩ := tick_of_refused_fetch (cfg := cfg) hs
  rcases Nat.lt_or_ge s.pc.toNat cfg.memSize with h0 | h0
  · rcases Nat.lt_or_ge (fetchAddr cfg s.pc 1).toNat cfg.memSize with h1 | h1
    · rcases Nat.lt_or_ge (fetchAddr cfg s.pc 2).toNat cfg.memSize with h2 | h2
      · cases hl : lookup cfg (s.byteAt s.pc) with
        | none =>
          refine .inr (.inl ⟨rfl, ?_⟩)
          rw [tick, startTick_eq cfg (stopped_of_executing hs), if_pos h0, if_pos h1, if_pos h2,
            decodeBytes_error.2 ⟨hl, rfl⟩]
        | some m =>
          rw [tick_of_hit hs h0 h1 h2 hl]
          exact .inr (.inr ⟨_, performs cfg _ _⟩)
      · exact .inl ⟨_, _, hopB h0 h1 h2, rfl⟩
    · exact .inl ⟨_, _, hopA h0 h1, rfl⟩
  · exact .inl ⟨_, _, hopcode h0, rfl⟩

/-! ## The obligations -/

/-- Settles O52: the two addresses are the fetch addresses. -/
theorem operandFetchesWrapAtAddrWidth : Obligations.OperandFetchesWrapAtAddrWidth := by
  intro cfg s a b i h hs ha hb hpc hma hmb hd
  obtain ⟨haddr, -, -, -⟩ := Config.legal_widths h
  obtain rfl : a = fetchAddr cfg s.pc 1 := BitVec.eq_of_toNat_eq (ha.trans (fetchAddr_toNat haddr s.pc 1).symm)
  obtain rfl : b = fetchAddr cfg s.pc 2 := BitVec.eq_of_toNat_eq (hb.trans (fetchAddr_toNat haddr s.pc 2).symm)
  exact tick_of_decode hs hpc hma hmb hd

/-- Settles O53: the PC either stays, on a fault or a miss, or is the wrapped advance. -/
theorem pcWrapsAtPcWidth : Obligations.PcWrapsAtPcWidth := by
  intro cfg s h
  obtain ⟨-, hwidth, -, -⟩ := Config.legal_widths h
  refine ⟨fun hs hl hf => ?_, fun hpc => ?_⟩
  · rcases tick_cases_any cfg hs with ⟨u, c, ht, -⟩ | ⟨hl', -⟩ | ⟨i, hp⟩
    · simp [ht] at hf
    · exact absurd hl' hl
    · rcases hp.pc_cases with ⟨hf', -⟩ | ⟨-, hpc⟩
      · exact absurd hf hf'
      · rw [hpc]
        exact wrapTo_length_toNat hwidth s.pc _
  · cases hs : s.stopped with
    | true => rwa [tick_stopped cfg hs]
    | false =>
      rcases tick_cases_any cfg (executing_of_not_stopped hs) with ⟨u, c, ht, hu⟩ | ⟨-, ht⟩ | ⟨i, hp⟩
      · rwa [ht, State.raise_pc, hu]
      · rwa [ht]
      · rcases hp.pc_cases with ⟨-, he⟩ | ⟨-, he⟩
        · rwa [he]
        · rw [he]
          exact wrapTo_lt _ _

/-- Settles O47: the accesses of the tick in their order; a stack access comes after the operand check. -/
theorem smallMemoryRangeFaults : Obligations.SmallMemoryRangeFaults := by
  intro cfg s hs
  obtain ⟨hopcode, hopA, hopB⟩ := tick_of_refused_fetch (cfg := cfg) hs
  refine ⟨hopcode, hopA, hopB, fun h0 h1 h2 hreg => ?_⟩
  obtain ⟨r, hr⟩ := exists_reg_of_lt hreg
  refine ⟨fun hl hm => ?_, fun hl hm => ?_⟩
  · rw [tick_of_hit hs h0 h1 h2 hl, assemble, perform, handlePush_eq, withReg_reg hr]
    exact if_neg hm.not_gt
  · rw [tick_of_hit hs h0 h1 h2 hl, assemble, perform, handlePop_eq, withReg_reg hr]
    exact if_neg hm.not_gt

/-- Settles O7: the bytes at the PC decode to the instruction, whatever stands where it has no operand, and a well-formed
instruction completes. -/
theorem tickRunsEncodedInstruction : Obligations.TickRunsEncodedInstruction := by
  intro cfg i s h hm hdisp hs hbytes
  have hopc := Config.legal_opc h
  have hw := Config.addrWidth_of_full h hm.ge
  have hlt : ∀ a : Addr, a.toNat < cfg.memSize := fun a => hm ▸ a.isLt
  have hlen : (encode cfg i).length = i.operands.length + 1 := rfl
  have hop : s.byteAt s.pc = opcodeOf cfg i := by
    have := hbytes 0 (Nat.succ_pos _)
    rwa [BitVec.ofNat_eq_ofNat, BitVec.add_zero] at this
  have hoperands : [s.byteAt (s.pc + 1), s.byteAt (s.pc + 2)].take i.mnemonic.arity = i.operands := by
    rw [← Instr.operands_length]
    refine take_pair_eq (i.operands_length ▸ i.mnemonic.arity_le_two) (fun h0 => hbytes 1 ?_) (fun h1 => hbytes 2 ?_)
    · omega
    · omega
  have hinstr : assemble i.mnemonic (s.byteAt (s.pc + 1)) (s.byteAt (s.pc + 2)) = i :=
    Instr.ext_operands (by simp) (by rw [assemble_operands_eq, hoperands])
  have htick : tick cfg s = perform cfg i (s.setIr (opcodeOf cfg i)) := by
    rw [← hop]
    refine tick_of_decode hs (hlt _) (hlt _) (hlt _) (decodeBytes_ok.2 ⟨i.mnemonic, ?_, ?_⟩)
    · rw [hop]
      exact lookup_byte hopc hdisp
    · rwa [fetchAddr_full hw, fetchAddr_full hw]
  refine ⟨htick, fun hok => ?_⟩
  obtain ⟨-, hpc⟩ := (performs cfg i (s.setIr (opcodeOf cfg i))).completes hm.ge hok
  rw [htick, hpc, wrapTo_length_toNat (Config.legal_widths h).2.1, hlen, Instr.operands_length]
  simp [opcodeOf, Opc.count_eq_arity hopc, Nat.add_assoc]

end Machine

end Sys2Proof
end

section
/-! What has no influence on an instruction (10_state.md R24, R28; 30_encoding.md R87; 40_cycle_and_dispatch.md R113): one
simulation lemma over a relation between two states that every named update of the state keeps, and a relation for each
statement. -/

namespace Sys2Proof

/-- Stores at different addresses commute, in the canonical form. -/
theorem Memory.write_comm {m : Memory} (hm : m.wf = true) {a b : Nat} (ha : a < 256) (hb : b < 256) (hab : a ≠ b) (v w : Byte) :
    (m.write a v).write b w = (m.write b w).write a v := by
  have hma := Memory.write_wf hm ha v
  have hmb := Memory.write_wf hm hb w
  refine Memory.ext_read (Memory.write_wf hma hb w) (Memory.write_wf hmb ha v) fun x => ?_
  rw [Memory.read_write hma, Memory.read_write hm, Memory.read_write hmb, Memory.read_write hm]
  by_cases hxa : x = a
  · simp [hxa, hab]
  · simp [hxa]

theorem mem_namedRegs {r : RegIndex} {bs : List Byte} : r ∈ namedRegs bs ↔ ∃ b ∈ bs, b.toNat = r.val := by
  simp [namedRegs, Machine.regOperand_some]

namespace Machine

/-! ## Register writes on registers already written -/

theorem State.setReg_comm (s : State) {q r : RegIndex} (h : q ≠ r) (v w : Byte) :
    (s.setReg r v).setReg q w = (s.setReg q w).setReg r v := by
  refine State.ext_reg (fun x => ?_) rfl rfl rfl rfl rfl rfl
  simp only [State.setReg_reg]
  by_cases hx : x = q
  · simp [hx, h]
  · simp [hx]

theorem State.setReg_setReg_same (s : State) (r : RegIndex) (v w : Byte) : (s.setReg r v).setReg r w = s.setReg r w := by
  refine State.ext_reg (fun x => ?_) rfl rfl rfl rfl rfl rfl
  by_cases hx : x = r <;> simp [hx]

/-! ## The simulation -/

/-- A relation between two states that agree outside the registers `regs` and the bytes at `addrs`, kept by every named update
that stays away from those. -/
structure Transparent (cfg : Config) (regs : List RegIndex) (addrs : List Addr) (R : State → State → Prop) : Prop where
  reg : ∀ {s t : State} {q : RegIndex}, R s t → q ∉ regs → t.reg q = s.reg q
  byteAt : ∀ {s t : State} {b : Addr}, R s t → b ∉ addrs → t.byteAt b = s.byteAt b
  setReg : ∀ {s t : State} {q : RegIndex} (v : Byte), R s t → q ∉ regs → R (s.setReg q v) (t.setReg q v)
  store : ∀ {s t : State} {b : Addr} (v : Byte), R s t → b ∉ addrs → R (s.store b v) (t.store b v)
  emit : ∀ {s t : State} (v : Byte), R s t → R (s.emit v) (t.emit v)
  halt : ∀ {s t : State}, R s t → R s.halt t.halt
  raise : ∀ {s t : State} (c : FaultCause), R s t → R (s.raise c) (t.raise c)
  advance : ∀ {s t : State}, R s t → R (s.advance cfg) (t.advance cfg)

namespace Transparent

variable {cfg : Config} {regs : List RegIndex} {addrs : List Addr} {R : State → State → Prop} {s t : State}

theorem withReg (h : Transparent cfg regs addrs R) (hR : R s t) {b : Byte} {k l : RegIndex → State}
    (hk : ∀ r : RegIndex, b.toNat = r.val → R (k r) (l r)) : R (Machine.withReg b s k) (Machine.withReg b t l) := by
  rcases Nat.lt_or_ge b.toNat 8 with hb | hb
  · rw [withReg_of_lt hb, withReg_of_lt hb]
    exact hk _ rfl
  · rw [withReg_of_ge hb, withReg_of_ge hb]
    exact h.raise _ hR

theorem aluApply (h : Transparent cfg regs addrs R) (hR : R s t) (op : AluOp) {p q : RegIndex} (hp : p ∉ regs)
    (hq : q ∉ regs) : R (Machine.aluApply op p q s) (Machine.aluApply op p q t) := by
  rw [Machine.aluApply, Machine.aluApply, h.reg hR hp, h.reg hR hq]
  exact h.setReg _ hR hp

theorem handleAlu1 (h : Transparent cfg regs addrs R) (hR : R s t) (op : AluOp) {a : Byte}
    (ha : ∀ q ∈ namedRegs [a], q ∉ regs) : R (Machine.handleAlu1 cfg op a s) (Machine.handleAlu1 cfg op a t) :=
  h.withReg hR fun r hr =>
    have hr := ha r (mem_namedRegs.2 ⟨a, by simp, hr⟩)
    h.advance (h.aluApply hR op hr hr)

theorem handleAlu2 (h : Transparent cfg regs addrs R) (hR : R s t) (op : AluOp) {a b : Byte}
    (hab : ∀ q ∈ namedRegs [a, b], q ∉ regs) : R (Machine.handleAlu2 cfg op a b s) (Machine.handleAlu2 cfg op a b t) :=
  h.withReg hR fun p hp => h.withReg hR fun q hq =>
    h.advance (h.aluApply hR op (hab p (mem_namedRegs.2 ⟨a, by simp, hp⟩)) (hab q (mem_namedRegs.2 ⟨b, by simp, hq⟩)))

theorem handlePrn (h : Transparent cfg regs addrs R) (hR : R s t) {a : Byte} (ha : ∀ q ∈ namedRegs [a], q ∉ regs) :
    R (Machine.handlePrn cfg a s) (Machine.handlePrn cfg a t) :=
  h.withReg hR fun r hr => by
    rw [h.reg hR (ha r (mem_namedRegs.2 ⟨a, by simp, hr⟩))]
    exact h.advance (h.emit _ hR)

theorem handleLdi (h : Transparent cfg regs addrs R) (hR : R s t) {a : Byte} (v : Byte)
    (ha : ∀ q ∈ namedRegs [a], q ∉ regs) :
    R (Machine.handleLdi cfg a v s) (Machine.handleLdi cfg a v t) :=
  h.withReg hR fun r hr => h.advance (h.setReg v hR (ha r (mem_namedRegs.2 ⟨a, by simp, hr⟩)))

theorem handlePush (h : Transparent cfg regs addrs R) (hR : R s t) {a : Byte}
    (ha : ∀ q ∈ cfg.spReg :: namedRegs [a], q ∉ regs) (haddr : pushAddr cfg s ∉ addrs) :
    R (Machine.handlePush cfg a s) (Machine.handlePush cfg a t) := by
  have hsp := ha cfg.spReg List.mem_cons_self
  have hp : pushAddr cfg t = pushAddr cfg s := congrArg (· - 1) (h.reg hR hsp)
  rw [handlePush_eq, handlePush_eq, hp]
  refine h.withReg hR fun r hr => ?_
  have hs := h.setReg (pushAddr cfg s) hR hsp
  rw [h.reg hs (ha r (List.mem_cons_of_mem _ (mem_namedRegs.2 ⟨a, by simp, hr⟩)))]
  split
  · exact h.advance (h.store _ hs haddr)
  · exact h.raise _ hs

theorem handlePop (h : Transparent cfg regs addrs R) (hR : R s t) {a : Byte}
    (ha : ∀ q ∈ cfg.spReg :: namedRegs [a], q ∉ regs) (haddr : popAddr cfg s ∉ addrs) :
    R (Machine.handlePop cfg a s) (Machine.handlePop cfg a t) := by
  have hsp := ha cfg.spReg List.mem_cons_self
  have hp : popAddr cfg t = popAddr cfg s := h.reg hR hsp
  rw [handlePop_eq, handlePop_eq, hp, h.byteAt hR haddr]
  refine h.withReg hR fun r hr => ?_
  have hs := h.setReg (s.byteAt (popAddr cfg s)) hR (ha r (List.mem_cons_of_mem _ (mem_namedRegs.2 ⟨a, by simp, hr⟩)))
  rw [h.reg hs hsp]
  split
  · exact h.advance (h.setReg _ hs hsp)
  · exact h.raise _ hR

/-- An instruction keeps a transparent relation where it neither reads nor writes a hidden register (the columns of 10_state.md
R24) and its stack access is not at a hidden address. -/
theorem perform (h : Transparent cfg regs addrs R) (hR : R s t) {i : Instr} (hreads : ∀ q ∈ i.reads cfg, q ∉ regs)
    (hwrites : ∀ q ∈ i.writes cfg, q ∉ regs) (hpush : i.mnemonic = .push → pushAddr cfg s ∉ addrs)
    (hpop : i.mnemonic = .pop → popAddr cfg s ∉ addrs) : R (Machine.perform cfg i s) (Machine.perform cfg i t) := by
  cases i with
  | nop => exact h.advance hR
  | hlt => exact h.advance (h.halt hR)
  | prn a => exact h.handlePrn hR hreads
  | pop a => exact h.handlePop hR hwrites (hpop rfl)
  | push a => exact h.handlePush hR hreads (hpush rfl)
  | inc a => exact h.handleAlu1 hR .inc hreads
  | dec a => exact h.handleAlu1 hR .dec hreads
  | ldi a v => exact h.handleLdi hR v hwrites
  | add a b => exact h.handleAlu2 hR .add hreads
  | mul a b => exact h.handleAlu2 hR .mul hreads
  | and a b => exact h.handleAlu2 hR .and hreads

/-- The same where nothing is hidden. -/
theorem perform_all (h : Transparent cfg [] [] R) (hR : R s t) (i : Instr) :
    R (Machine.perform cfg i s) (Machine.perform cfg i t) :=
  h.perform hR (by simp) (by simp) (by simp) (by simp)

end Transparent

/-! ## The PC and IR -/

/-- Two states that differ in the PC and IR alone. -/
def SameButPcIr (s t : State) : Prop := ∃ (p : Addr) (c : Byte), t = { s with pc := p, ir := c }

theorem sameButPcIr_transparent (cfg : Config) : Transparent cfg [] [] SameButPcIr where
  reg := by rintro s _ q ⟨p, c, rfl⟩ -; rfl
  byteAt := by rintro s _ b ⟨p, c, rfl⟩ -; rfl
  setReg := by rintro s _ q v ⟨p, c, rfl⟩ -; exact ⟨p, c, rfl⟩
  store := by rintro s _ b v ⟨p, c, rfl⟩ -; exact ⟨p, c, rfl⟩
  emit := by rintro s _ v ⟨p, c, rfl⟩; exact ⟨p, c, rfl⟩
  halt := by rintro s _ ⟨p, c, rfl⟩; exact ⟨p, c, rfl⟩
  raise := by rintro s _ k ⟨p, c, rfl⟩; exact ⟨p, c, rfl⟩
  advance := by rintro s _ ⟨p, c, rfl⟩; exact ⟨_, c, rfl⟩

/-- Settles O42: every update keeps two states equal but for the PC and IR. -/
theorem pcAndIrAreUnobservable : Obligations.PcAndIrAreUnobservable := by
  intro i s t p c h
  rw [exec_eq_perform] at h
  obtain rfl := Host.Outcome.next.inj h
  obtain ⟨p', c', he⟩ := (sameButPcIr_transparent Config.hw).perform_all (s := s) ⟨p, c, rfl⟩ i
  exact ⟨_, exec_eq_perform i _, by rw [he]⟩

/-! ## The opcode numbers -/

/-- A state whose `ir` declares as many operands as `c`, and the same state with `c` there. -/
def SameButIr (c : Byte) (s t : State) : Prop := operandCount s.ir = operandCount c ∧ t = s.setIr c

/-- The PC advance reads no more of `ir` than the count. -/
theorem advance_setIr {s : State} {c : Byte} (h : operandCount s.ir = operandCount c) (cfg : Config) :
    (s.setIr c).advance cfg = (s.advance cfg).setIr c := by
  rw [State.advance, State.advance, State.setIr_ir, h]
  rfl

theorem sameButIr_transparent (cfg : Config) (c : Byte) : Transparent cfg [] [] (SameButIr c) where
  reg := by rintro s _ q ⟨-, rfl⟩ -; rfl
  byteAt := by rintro s _ b ⟨-, rfl⟩ -; rfl
  setReg := by rintro s _ q v ⟨h, rfl⟩ -; exact ⟨h, rfl⟩
  store := by rintro s _ b v ⟨h, rfl⟩ -; exact ⟨h, rfl⟩
  emit := by rintro s _ v ⟨h, rfl⟩; exact ⟨h, rfl⟩
  halt := by rintro s _ ⟨h, rfl⟩; exact ⟨h, rfl⟩
  raise := by rintro s _ k ⟨h, rfl⟩; exact ⟨h, rfl⟩
  advance := by rintro s _ ⟨h, rfl⟩; exact ⟨h, advance_setIr h cfg⟩

/-- The handlers do not look at the opcode assignment. -/
theorem perform_with_opc (cfg : Config) (o : Opc) (i : Instr) (s : State) :
    perform { cfg with opc := o } i s = perform cfg i s := by
  cases i <;> rfl

/-- Settles O8: both assignments declare the mnemonic's arity (constraint 2 of R87), and the PC advance reads only that. -/
theorem opcodeNumbersDoNotMatter : Obligations.OpcodeNumbersDoNotMatter := by
  intro cfg o i s hcfg ho
  have hcount : operandCount (cfg.opc.byte i.mnemonic) = operandCount (o.byte i.mnemonic) :=
    BitVec.eq_of_toNat_eq (by rw [Opc.count_eq_arity hcfg, Opc.count_eq_arity ho])
  rw [perform_with_opc]
  exact ((sameButIr_transparent cfg (o.byte i.mnemonic)).perform_all
    (s := s.setIr (cfg.opc.byte i.mnemonic)) ⟨hcount, rfl⟩ i).2

/-! ## A register that is not read -/

/-- A state and the same state with a register changed. -/
def SameButReg (r : RegIndex) (v : Byte) (s t : State) : Prop := t = s.setReg r v

theorem sameButReg_transparent (cfg : Config) (r : RegIndex) (v : Byte) : Transparent cfg [r] [] (SameButReg r v) where
  reg := by rintro s _ q rfl hq; exact State.setReg_reg_other s v (List.ne_of_not_mem_cons hq)
  byteAt := by rintro s _ b rfl -; rfl
  setReg := by rintro s _ q w rfl hq; exact State.setReg_comm s (List.ne_of_not_mem_cons hq) v w
  store := by rintro s _ b w rfl -; rfl
  emit := by rintro s _ w rfl; rfl
  halt := by rintro s _ rfl; rfl
  raise := by rintro s _ k rfl; rfl
  advance := by rintro s _ rfl; rfl

/-- An instruction that writes a register without reading it is an LDI or a POP of it. -/
theorem ldi_or_pop_of_written_unread {cfg : Config} {i : Instr} {r : RegIndex} (hw : r ∈ i.writes cfg)
    (hr : r ∉ i.reads cfg) :
    ∃ a : Byte, a.toNat = r.val ∧ ((∃ v, i = .ldi a v) ∨ (i = .pop a ∧ r ≠ cfg.spReg)) := by
  cases i with
  | nop | hlt | prn => exact absurd hw List.not_mem_nil
  | inc | dec => exact absurd hw hr
  | push a => exact absurd (List.mem_singleton.1 hw ▸ List.mem_cons_self) hr
  | add a b | mul a b | and a b =>
    obtain ⟨x, hx, hxr⟩ := mem_namedRegs.1 hw
    exact absurd (mem_namedRegs.2 ⟨x, List.mem_singleton.1 hx ▸ List.mem_cons_self, hxr⟩) hr
  | ldi a v =>
    obtain ⟨x, hx, hxr⟩ := mem_namedRegs.1 hw
    obtain rfl := List.mem_singleton.1 hx
    exact ⟨x, hxr, .inl ⟨v, rfl⟩⟩
  | pop a =>
    have hsp : r ≠ cfg.spReg := fun e => hr (e ▸ List.mem_cons_self)
    obtain ⟨x, hx, hxr⟩ := mem_namedRegs.1 (List.mem_of_ne_of_mem hsp hw)
    obtain rfl := List.mem_singleton.1 hx
    exact ⟨x, hxr, .inr ⟨rfl, hsp⟩⟩

/-- Settles O41: a register outside both columns is carried through every update; one that is written unread is an LDI's or a
POP's, which overwrites it. -/
theorem registersReadFollowTable : Obligations.RegistersReadFollowTable := by
  intro i s t r v h hr
  refine ⟨fun hw => ?_, fun hw => ?_⟩
  · rw [exec_eq_perform] at h ⊢
    obtain rfl := Host.Outcome.next.inj h
    have hother : ∀ {l : List RegIndex}, r ∉ l → ∀ q ∈ l, q ∉ [r] :=
      fun hl q hq e => hl (List.mem_singleton.1 e ▸ hq)
    exact congrArg _ ((sameButReg_transparent Config.hw r v).perform (s := s) rfl (hother hr) (hother hw)
      (fun _ => List.not_mem_nil) (fun _ => List.not_mem_nil))
  · obtain ⟨a, ha, ⟨w, rfl⟩ | ⟨rfl, hsp⟩⟩ := ldi_or_pop_of_written_unread hw hr
    · rw [← h, exec_ldi ha, exec_ldi ha, State.setReg_setReg_same]
    · have hsp : r ≠ 7 := hsp
      rw [← h, exec_pop ha, exec_pop ha, State.setReg_reg_other s v hsp.symm, State.setReg_byteAt,
        State.setReg_setReg_same, if_neg hsp]

/-! ## An operand byte that is not used -/

/-- A state of canonical memory and the same state with a byte stored. -/
def SameButByte (k : Addr) (v : Byte) (s t : State) : Prop := s.mem.wf = true ∧ t = s.store k v

theorem State.store_comm {s : State} (hm : s.mem.wf = true) {a b : Addr} (h : b ≠ a) (v w : Byte) :
    (s.store a v).store b w = (s.store b w).store a v :=
  State.ext_reg (fun _ => rfl) rfl rfl rfl rfl rfl
    (Memory.write_comm hm a.isLt b.isLt (addr_toNat_ne h.symm) v w)

theorem sameButByte_transparent (cfg : Config) (k : Addr) (v : Byte) : Transparent cfg [] [k] (SameButByte k v) where
  reg := by rintro s _ q ⟨-, rfl⟩ -; rfl
  byteAt := by rintro s _ b ⟨-, rfl⟩ hb; exact State.store_byteAt_other s v (List.ne_of_not_mem_cons hb)
  setReg := by rintro s _ q w ⟨h, rfl⟩ -; exact ⟨h, rfl⟩
  store := by
    rintro s _ b w ⟨h, rfl⟩ hb
    exact ⟨State.store_wf h b w, State.store_comm h (List.ne_of_not_mem_cons hb) v w⟩
  emit := by rintro s _ w ⟨h, rfl⟩; exact ⟨h, rfl⟩
  halt := by rintro s _ ⟨h, rfl⟩; exact ⟨h, rfl⟩
  raise := by rintro s _ c ⟨h, rfl⟩; exact ⟨h, rfl⟩
  advance := by rintro s _ ⟨h, rfl⟩; exact ⟨h, rfl⟩

theorem step_of_miss {s : State} (hs : s.Executing) (hl : lookup Config.hw (s.byteAt s.pc) = none) :
    step s = .next (s.setIr (s.byteAt s.pc)).halt := by
  rw [step_eq_tick, tick_of_lookup_none (cfg := Config.hw) le_rfl hs hl]

theorem step_of_hit {s : State} {m : Mnemonic} (hs : s.Executing) (hl : lookup Config.hw (s.byteAt s.pc) = some m) :
    step s = .next (perform Config.hw (s.fetched m) (s.setIr (s.byteAt s.pc))) := by
  rcases step_cases_executing hs (step_eq_tick s) with ⟨hl', -⟩ | ⟨m', hl', -, ht⟩
  · simp [hl] at hl'
  · obtain rfl : m = m' := Option.some.inj (hl.symm.trans hl')
    rw [step_eq_tick, ht]

/-- A byte the mnemonic's arity does not reach is not part of the instruction fetched. -/
theorem fetched_store {s : State} {k : Addr} {m : Mnemonic} (v : Byte)
    (hk : (k = s.pc + 1 ∧ m.arity = 0) ∨ (k = s.pc + 2 ∧ m.arity ≤ 1)) : (s.store k v).fetched m = s.fetched m := by
  refine assemble_congr ?_
  rw [State.store_pc]
  rcases hk with ⟨-, h0⟩ | ⟨rfl, h1⟩
  · simp [h0]
  · rw [State.store_byteAt_other s v (show s.pc + 1 ≠ s.pc + 2 by bv_omega)]
    interval_cases m.arity <;> simp

/-- Settles O43: the byte is not the opcode, is not part of the instruction fetched, and is not where the stack access is. -/
theorem unusedOperandBytesHaveNoInfluence : Obligations.UnusedOperandBytesHaveNoInfluence := by
  intro s t k v hm h hk hpush hpop
  have hne : s.pc ≠ k := by rcases hk with ⟨rfl, -⟩ | ⟨rfl, -⟩ <;> bv_omega
  have hop : (s.store k v).byteAt s.pc = s.byteAt s.pc := State.store_byteAt_other s v hne
  rcases step_cases h with ⟨hs, rfl⟩ | ⟨hs, hl, rfl⟩ | ⟨hs, m, hl, -, rfl⟩
  · exact step_of_stopped hs
  · rw [step_of_miss (s := s.store k v) hs (hop ▸ hl), State.store_pc, hop]
    rfl
  · rw [step_of_hit (s := s.store k v) hs (hop ▸ hl), State.store_pc, hop,
      fetched_store v (hk.imp (fun h => ⟨h.1, h.2 m hl⟩) fun h => ⟨h.1, h.2 m hl⟩)]
    have hb := lookup_hw_eq_some_iff.1 hl
    have hsim := (sameButByte_transparent Config.hw k v).perform (s := s.setIr (s.byteAt s.pc)) (i := s.fetched m)
      ⟨hm, rfl⟩ (by simp) (by simp)
      (by rw [State.fetched_mnemonic]; rintro rfl; exact fun hmem => hpush hb (List.mem_singleton.1 hmem).symm)
      (by rw [State.fetched_mnemonic]; rintro rfl; exact fun hmem => hpop hb (List.mem_singleton.1 hmem).symm)
    exact congrArg _ hsim.2

/-! ## What a PUSH wrote -/

/-- A tick that fetches a PUSH runs it on the bytes it fetched, before its own write (45_stack.md section 2). -/
theorem step_of_push {s : State} {r : RegIndex} (hm : s.mem.wf = true) (hs : s.Executing)
    (hb : s.byteAt s.pc = Config.hw.opc.push) (hr : (s.byteAt (s.pc + 1)).toNat = r.val) :
    ∃ t, step s = .next t ∧ t.pc = s.pc + 2 ∧ t.Executing ∧
      ∀ b : Addr, t.byteAt b =
        if b = s.reg 7 - 1 then (if r = 7 then s.reg 7 - 1 else s.reg r) else s.byteAt b := by
  have hl : lookup Config.hw (s.byteAt s.pc) = some .push := lookup_hw_eq_some_iff.2 hb
  have hstep := stepRunsDecodedInstruction s (.push (s.byteAt (s.pc + 1))) hs (decodeBytes_ok.2 ⟨.push, hl, rfl⟩)
  rw [exec_push hr] at hstep
  refine ⟨_, hstep, ?_, hs, State.store_byteAt (s := (s.setIr (s.byteAt s.pc)).setReg 7 (s.reg 7 - 1)) hm _ _⟩
  have hcount : s.pc + operandCount Config.hw.opc.push + 1 = s.pc + 2 := by
    rw [BitVec.add_assoc]
    rfl
  rw [← hcount, ← hb]
  rfl

/-- Settles O44: the next tick is a tick of the state the PUSH left. -/
theorem nextTickFetchesWhatPushWrote : Obligations.NextTickFetchesWhatPushWrote := by
  intro s r hm hs hb hr
  obtain ⟨t, ht, hpc, hexec, hbytes⟩ := step_of_push hm hs hb hr
  exact ⟨t, tick Config.hw t, ht, step_eq_tick t, hpc, hexec, hbytes, step_ir hexec (step_eq_tick t),
    fun i hd => (stepRunsDecodedInstruction t i hexec hd).symm.trans (step_eq_tick t)⟩

end Machine

end Sys2Proof
end

section
/-! Driving and the host's session (40_cycle_and_dispatch.md R121, R125; 60_exceptions.md R228): driving is iterated ticks, and
a session is a load and then a drive. -/

namespace Sys2Proof.Machine

/-! ## Driving -/

/-- The test for a stopped machine is idle: a stopped machine's tick changes nothing. -/
theorem drive_succ (cfg : Config) (k : Nat) (s : State) : drive cfg (k + 1) s = drive cfg k (tick cfg s) := by
  cases hs : s.stopped with
  | true => rw [drive_stopped cfg hs, tick_stopped cfg hs, drive_stopped cfg hs]
  | false => simp [drive, hs]

theorem drive_one (cfg : Config) (s : State) : drive cfg 1 s = tick cfg s := drive_succ cfg 0 s

theorem drive_add (cfg : Config) (j k : Nat) (s : State) : drive cfg (j + k) s = drive cfg k (drive cfg j s) := by
  induction j generalizing s with
  | zero => rw [Nat.zero_add, drive]
  | succ j ih => rw [Nat.succ_add, drive_succ, ih, drive_succ]

/-- The same, its last tick split off. -/
theorem drive_succ_last (cfg : Config) (k : Nat) (s : State) : drive cfg (k + 1) s = tick cfg (drive cfg k s) := by
  rw [drive_add, drive_one]

/-- Settles O49: driving is iterated ticks. -/
theorem drivingComposes : Obligations.DrivingComposes := fun cfg j k s =>
  ⟨drive_add cfg j k s, drive_one cfg s, fun hs => drive_stopped cfg ((State.stopped_iff s).2 hs) k⟩

/-! ## A program is a straight line -/

/-- A tick that leaves the machine executing moves the PC: by 1 to 4 addresses, modulo 256. -/
theorem tick_stops_or_moves_pc {s : State} (hs : s.stopped = false) :
    (tick Config.hw s).stopped = true ∨ (tick Config.hw s).pc.toNat ≠ s.pc.toNat := by
  rcases step_cases_executing (executing_of_not_stopped hs) (step_eq_tick s) with ⟨-, ht⟩ | ⟨m, -, hp, -⟩
  · exact .inl (by rw [ht]; exact State.stopped_of_halted rfl)
  · rcases hp.pc_cases with ⟨hf, -⟩ | ⟨-, hpc⟩
    · exact .inl ((State.stopped_iff _).2 (.inr hf))
    · refine .inr ?_
      have hcount := operandCount_toNat (s.byteAt s.pc)
      have hbyte := (s.byteAt s.pc).isLt
      have hold := s.pc.isLt
      rw [hpc, Config.hw_pcWidth, State.setIr_pc, State.setIr_ir, wrapTo_length_toNat le_rfl]
      omega

/-- While a run has neither stopped nor wrapped, its PC has risen at every tick. -/
theorem drive_stops_or_wraps_or_rises (s : State) (k : Nat) :
    (drive Config.hw k s).stopped = true ∨
    (∃ j, j < k ∧ (drive Config.hw (j + 1) s).pc.toNat < (drive Config.hw j s).pc.toNat) ∨
    k ≤ (drive Config.hw k s).pc.toNat := by
  induction k with
  | zero => exact .inr (.inr (Nat.zero_le _))
  | succ k ih =>
    cases hs : (drive Config.hw k s).stopped with
    | true => exact .inl (by rwa [drive_succ_last, tick_stopped Config.hw hs])
    | false =>
      rcases ih with hstop | ⟨j, hj, hwrap⟩ | hrise
      · simp [hs] at hstop
      · exact .inr (.inl ⟨j, hj.trans k.lt_succ_self, hwrap⟩)
      · rcases tick_stops_or_moves_pc hs with hstop | hmove
        · exact .inl (by rwa [drive_succ_last])
        · rw [← drive_succ_last] at hmove
          rcases Nat.lt_or_gt_of_ne hmove with hwrap | hup
          · exact .inr (.inl ⟨k, k.lt_succ_self, hwrap⟩)
          · exact .inr (.inr (hrise.trans_lt hup))

/-- Settles O50: after 256 ticks the PC cannot have risen at every one. -/
theorem runStopsOrWrapsWithin256Ticks : Obligations.RunStopsOrWrapsWithin256Ticks := by
  refine fun s => ⟨256, le_rfl, ?_⟩
  rcases drive_stops_or_wraps_or_rises s 256 with hstop | hwrap | hrise
  · exact .inl hstop
  · exact .inr hwrap
  · exact absurd (drive Config.hw 256 s).pc.isLt hrise.not_gt

/-! ## Sessions -/

theorem session_append {cfg : Config} {pre post : List HostEvent} {p q : HostPhase} {s t : State}
    (h : session cfg p s (pre ++ post) = some (q, t)) :
    ∃ r u, session cfg p s pre = some (r, u) ∧ session cfg r u post = some (q, t) := by
  induction pre generalizing p s with
  | nil => exact ⟨p, s, rfl, h⟩
  | cons e pre ih =>
    obtain ⟨p', s', hmove, h⟩ := session_cons.1 h
    obtain ⟨r, u, hpre, hpost⟩ := ih h
    exact ⟨r, u, session_cons.2 ⟨p', s', hmove, hpre⟩, hpost⟩

/-- Once a tick has been requested a session pokes nothing and drives the machine. -/
theorem session_after_loading {cfg : Config} {es : List HostEvent} {p q : HostPhase} {s t : State} (hp : p ≠ .loading)
    (h : session cfg p s es = some (q, t)) : pokesOf es = [] ∧ t = drive cfg (ticksOf es) s := by
  induction es generalizing p s with
  | nil =>
    cases h
    exact ⟨rfl, rfl⟩
  | cons e es ih =>
    obtain ⟨r, u, hmove, hrest⟩ := session_cons.1 h
    rw [pokesOf_cons, ticksOf_cons]
    rcases hostMove_cases hmove with ⟨a, v, -, hload, -⟩ | ⟨rfl, -, rfl, rfl⟩ | ⟨rfl, -, rfl, rfl⟩ | ⟨he, -, rfl, rfl⟩
    · exact absurd hload hp
    · exact ih (p := .inTick) (by simp) hrest
    · obtain ⟨hpokes, rfl⟩ := ih (by simp) hrest
      exact ⟨hpokes, (drive_succ cfg _ s).symm⟩
    · obtain ⟨hpokes, rfl⟩ := ih hp hrest
      rcases he with rfl | rfl <;> exact ⟨hpokes, rfl⟩

/-- A session from reset pokes the machine and then drives it. -/
theorem session_from_loading {cfg : Config} {es : List HostEvent} {q : HostPhase} {s t : State}
    (h : session cfg .loading s es = some (q, t)) : t = drive cfg (ticksOf es) (s.pokeAll cfg (pokesOf es)) := by
  induction es generalizing s with
  | nil =>
    cases h
    rfl
  | cons e es ih =>
    obtain ⟨r, u, hmove, hrest⟩ := session_cons.1 h
    rw [pokesOf_cons, ticksOf_cons]
    rcases hostMove_cases hmove with ⟨a, v, rfl, -, rfl, rfl⟩ | ⟨rfl, -, rfl, rfl⟩ | ⟨-, hload, -⟩ | ⟨he, -, rfl, rfl⟩
    · exact ih hrest
    · obtain ⟨hpokes, rfl⟩ := session_after_loading (by simp) hrest
      rw [hpokes]
      rfl
    · cases hload
    · rcases he with rfl | rfl <;> exact ih hrest

/-- A tick request has a move only to the inside of a tick. -/
theorem session_tickRequest {cfg : Config} {es : List HostEvent} {p q : HostPhase} {s t : State}
    (h : session cfg p s (.tickRequest :: es) = some (q, t)) : session cfg .inTick s es = some (q, t) := by
  obtain ⟨r, u, hmove, hrest⟩ := session_cons.1 h
  cases p <;> cases hmove <;> exact hrest

/-- Settles O55: at a tick request the session leaves the loading phase for good. -/
theorem sessionIsLoadThenDrive : Obligations.SessionIsLoadThenDrive := by
  refine fun cfg es s t p h => ⟨?_, session_from_loading h⟩
  rintro pre post rfl
  obtain ⟨r, u, -, hpost⟩ := session_append h
  exact (session_after_loading (by simp) (session_tickRequest hpost)).1

/-! ## The invariant in a session -/

theorem poke_inv {s : State} (h : s.Inv) (a : Addr) (v : Byte) : (s.poke Config.hw a v).Inv := by
  obtain ⟨hwf, hfault⟩ := h
  obtain ⟨m, hm, hpoke⟩ := poke_eq_with_mem (cfg := Config.hw) le_rfl hwf a v
  rw [hpoke]
  exact ⟨hm, hfault⟩

theorem tick_inv {s : State} (h : s.Inv) : (tick Config.hw s).Inv := stepKeepsInvariant s _ h (step_eq_tick s)

theorem hostMove_inv {p q : HostPhase} {s t : State} {e : HostEvent} (h : s.Inv)
    (hmove : hostMove Config.hw p s e = some (q, t)) : t.Inv := by
  rcases hostMove_cases hmove with ⟨a, v, -, -, -, rfl⟩ | ⟨-, -, -, rfl⟩ | ⟨-, -, -, rfl⟩ | ⟨-, -, -, rfl⟩
  · exact poke_inv h a v
  · exact h
  · exact tick_inv h
  · exact h

theorem session_inv {es : List HostEvent} {p q : HostPhase} {s t : State} (h : s.Inv)
    (hsession : session Config.hw p s es = some (q, t)) : t.Inv := by
  induction es generalizing p s with
  | nil =>
    cases hsession
    exact h
  | cons e es ih =>
    obtain ⟨r, u, hmove, hsession⟩ := session_cons.1 hsession
    exact ih (hostMove_inv h hmove) hsession

/-- Settles O56: every host event that has a move keeps the invariant. -/
theorem sessionKeepsInvariant : Obligations.SessionKeepsInvariant := fun _ _ _ _ h hsession => session_inv h hsession

/-! ## The first tick of a run -/

/-- Settles O57: the pokes change only memory, so the machine still executes at PC 0, where they put byte 0. -/
theorem runStartsAtFirstProgramByte : Obligations.RunStartsAtFirstProgramByte := by
  intro cfg op rest es s t p h hticks hsession
  obtain ⟨⟨rfl, hwf⟩, ⟨-, -, -, hprog⟩, -, hhw⟩ := h
  have ht := session_from_loading hsession
  rw [hticks, drive_one] at ht
  refine ⟨ht, ?_⟩
  have hm : 256 ≤ cfg.memSize := hhw.memSize.ge
  obtain ⟨m, -, hpoked⟩ := pokeAll_eq_with_mem hm (pokesOf es) (s := State.resetOf cfg) hwf
  rw [hpoked] at hprog
  have hpc : (State.resetOf cfg).pc = 0 := hhw.resetPc
  rw [ht, hpoked, tick_ir hm (s := { State.resetOf cfg with mem := m }) ⟨rfl, rfl⟩, hpc]
  exact hprog 0 (Nat.succ_pos _)

end Sys2Proof.Machine
end

section
/-! The output's text (43_prn.md R161): a numeral's digits, their value, and the line feed that ends each line and stands in no
numeral. -/

namespace Sys2Proof.Machine

/-! ## Numerals -/

/-- The digits' characters stand in order from '0'. -/
theorem digitChar_toNat {d : Nat} (h : d < 10) : (digitChar d).toNat = '0'.toNat + d := by
  revert d
  decide

theorem digitChar_eq_zero {d : Nat} (h : d < 10) (hd : digitChar d = '0') : d = 0 := by
  have := digitChar_toNat h
  rw [hd] at this
  omega

/-- The number a list of digit characters stands for. -/
def numeralValue (ds : List Char) : Nat := ds.foldl (fun n c => 10 * n + (c.toNat - '0'.toNat)) 0

theorem foldl_digitChars {ds : List Nat} (h : ∀ d ∈ ds, d < 10) (n : Nat) :
    (ds.map digitChar).foldl (fun n c => 10 * n + (c.toNat - '0'.toNat)) n = ds.foldl (fun n d => 10 * n + d) n := by
  induction ds generalizing n with
  | nil => rfl
  | cons d ds ih =>
    rw [List.map_cons, List.foldl_cons, List.foldl_cons, digitChar_toNat (h d List.mem_cons_self), Nat.add_sub_cancel_left]
    exact ih (fun x hx => h x (List.mem_cons_of_mem d hx)) _

/-- A numeral is its number's decimal digits, each below 10, the first of them 0 only in the numeral of 0. -/
theorem numeral_digits {n : Nat} (h : n < 1000) :
    ∃ (d : Nat) (ds : List Nat), numeral n = (d :: ds).map digitChar ∧ (∀ x ∈ d :: ds, x < 10) ∧
      (d :: ds).foldl (fun n d => 10 * n + d) 0 = n ∧ (d = 0 → n = 0) := by
  unfold numeral
  split_ifs with h1 h2
  · exact ⟨n, [], rfl, by simpa using h1, by simp, id⟩
  · refine ⟨n / 10, [n % 10], rfl, ?_, ?_, by omega⟩
    · simp only [List.mem_cons, List.not_mem_nil, or_false, forall_eq_or_imp, forall_eq]
      omega
    · simp only [List.foldl_cons, List.foldl_nil]
      omega
  · refine ⟨n / 100, [n / 10 % 10, n % 10], rfl, ?_, ?_, by omega⟩
    · simp only [List.mem_cons, List.not_mem_nil, or_false, forall_eq_or_imp, forall_eq]
      omega
    · simp only [List.foldl_cons, List.foldl_nil]
      omega

/-- The numeral of a byte: decimal digits with the byte's value, without leading zeros, "0" for 0. -/
theorem decimal_spec (v : Byte) :
    (∀ c ∈ decimal v, '0'.toNat ≤ c.toNat ∧ c.toNat ≤ '9'.toNat) ∧ numeralValue (decimal v) = v.toNat ∧
    ((decimal v).head? = some '0' → v = 0) ∧ 1 ≤ (decimal v).length ∧ (v = 0 → decimal v = ['0']) := by
  obtain ⟨d, ds, hnum, hlt, hval, hlead⟩ := numeral_digits (n := v.toNat) (v.isLt.trans (by decide))
  have hdec : decimal v = (d :: ds).map digitChar := hnum
  rw [hdec]
  refine ⟨fun c hc => ?_, (foldl_digitChars hlt 0).trans hval, fun hhead => ?_, ?_, ?_⟩
  · obtain ⟨x, hx, rfl⟩ := List.mem_map.1 hc
    have hx := hlt x hx
    rw [digitChar_toNat hx]
    exact ⟨Nat.le_add_right _ _, Nat.add_le_add_left (Nat.le_of_lt_succ hx) _⟩
  · have hd : d = 0 := digitChar_eq_zero (hlt d List.mem_cons_self) (Option.some.inj hhead)
    exact BitVec.eq_of_toNat_eq (hlead hd)
  · simp
  · rintro rfl
    exact hdec.symm

theorem decimal_injective {v w : Byte} (h : decimal v = decimal w) : v = w := by
  obtain ⟨-, hv, -⟩ := decimal_spec v
  obtain ⟨-, hw, -⟩ := decimal_spec w
  exact BitVec.eq_of_toNat_eq (by rw [← hv, h, hw])

/-! ## Lines -/

theorem lineFeed_not_mem_decimal (v : Byte) : '\n' ∉ decimal v := fun h =>
  absurd ((decimal_spec v).1 '\n' h).1 (by decide)

theorem outputText_cons (v : Byte) (out : List Byte) : outputText (v :: out) = decimal v ++ '\n' :: outputText out := by
  simp [outputText, outputLine]

/-- A text up to its first line feed is the first value's numeral. -/
theorem takeWhile_outputText_cons (v : Byte) (out : List Byte) :
    (outputText (v :: out)).takeWhile (· != '\n') = decimal v := by
  have hdigits : ∀ c ∈ decimal v, (c != '\n') = true := fun c hc =>
    bne_iff_ne.2 fun e => lineFeed_not_mem_decimal v (e ▸ hc)
  rw [outputText_cons, List.takeWhile_append_of_pos hdigits]
  simp

theorem outputText_injective {xs ys : List Byte} (h : outputText xs = outputText ys) : xs = ys := by
  induction xs generalizing ys with
  | nil =>
    cases ys with
    | nil => rfl
    | cons w ys => simp [outputText, outputLine] at h
  | cons v xs ih =>
    cases ys with
    | nil => simp [outputText, outputLine] at h
    | cons w ys =>
      obtain rfl : v = w := decimal_injective (by rw [← takeWhile_outputText_cons v xs, h, takeWhile_outputText_cons])
      rw [outputText_cons, outputText_cons, List.append_cancel_left_eq, List.cons.injEq] at h
      rw [ih h.2]

/-- Settles O51: the digits and the line feed of a line, and reading a text off line by line. -/
theorem outputTextIsDecimalLines : Obligations.OutputTextIsDecimalLines :=
  ⟨fun v => ⟨decimal v, rfl, decimal_spec v⟩, fun _ _ => List.flatMap_append, fun _ _ => outputText_injective⟩

end Sys2Proof.Machine
end
